-- ==== Sys2Proof/Word.lean ====
section
/-! DEFINITION. The word types of the block (spec 00_scope.md R5, R9): every value is unsigned. -/

namespace Sys2Proof

/-- A `u8`: a general register, a timer, a memory cell, an immediate (R5 `XLEN`, `TIMER_BITS`). -/
abbrev Byte := BitVec 8

/-- A `u16`: `PC`, `I`, a stack entry, an instruction word (R5 `PC_BITS`, `I_BITS`, `STACK_ENTRY_BITS`). -/
abbrev Word := BitVec 16

/-- A `u12`: the address operand `nnn` (30_encoding.md R82). -/
abbrev Addr := BitVec 12

/-- The identifier of a general register, `V0` to `VF` (10_state.md R22). -/
abbrev Reg := Fin 16

/-- `VF`, the flags register `V[15]` (10_state.md R23). -/
abbrev Reg.vf : Reg := 15

end Sys2Proof
end

