-- ==== Sys2Proof/Config.lean ====
section
/-! DEFINITION. The parameters of the block: those the source fixes (00_scope.md R5), those it leaves open (R6) with the
spec's defaults, and the free values, which no file gives a value. -/

namespace Sys2Proof

/-- The two values of `VF_ORDER_ARITH` (00_scope.md R6, 42_load_alu.md R163; log 8). -/
inductive VfOrder where
  | flagThenResult
  | resultThenFlag
deriving DecidableEq, Repr

/-- The open parameters of 00_scope.md R6. "Each is a named argument of the model": State carries one such record,
which no step changes (log 4). -/
structure Params where
  /-- `PROGRAM_BASE`, an address from 0 to 4095 -/
  programBase : Addr
  /-- `FONT_BASE`, an address with `FONT_BASE + 80 <= 4096` (see `Params.wf`) -/
  fontBase : Addr
  /-- `GLYPH_TABLE`, 16 glyphs of 5 bytes -/
  glyphTable : Vector Byte 80
  /-- `STACK_DEPTH`: `none` is unbounded -/
  stackDepth : Option Nat
  /-- `VF_ORDER_ARITH` -/
  vfOrder : VfOrder
deriving DecidableEq, Repr

/-- The constraint R6 puts on the parameters. -/
abbrev Params.wf (p : Params) : Prop := p.fontBase.toNat + 80 ≤ 4096

/-- `MEM_SIZE` (R5): valid addresses are 0 to 4095. -/
abbrev Config.memSize : Nat := 4096

/-- `DISP_W` (R5): columns 0 to 63. -/
abbrev Config.dispW : Nat := 64

/-- `DISP_H` (R5): rows 0 to 31. -/
abbrev Config.dispH : Nat := 32

/-- `SPRITE_W` (R5): pixels of a sprite row, one byte. -/
abbrev Config.spriteW : Nat := 8

/-- `ILEN` (R5): bytes of an instruction. -/
abbrev Config.ilen : Nat := 2

/-- `GLYPH_BYTES` (R5): bytes of one glyph. -/
abbrev Config.glyphBytes : Nat := 5

/-- Glyphs 0 to 3 of the usual table (93_implementation_defined.md G6; PRESUMED, log 6). -/
def Config.glyphs0to3 : List Byte :=
  [0xF0, 0x90, 0x90, 0x90, 0xF0,  0x20, 0x60, 0x20, 0x20, 0x70,
   0xF0, 0x10, 0xF0, 0x80, 0xF0,  0xF0, 0x10, 0xF0, 0x10, 0xF0]

/-- Glyphs 4 to 7 (G6). -/
def Config.glyphs4to7 : List Byte :=
  [0x90, 0x90, 0xF0, 0x10, 0x10,  0xF0, 0x80, 0xF0, 0x10, 0xF0,
   0xF0, 0x80, 0xF0, 0x90, 0xF0,  0xF0, 0x10, 0x20, 0x40, 0x40]

/-- Glyphs 8 to B (G6). -/
def Config.glyphs8toB : List Byte :=
  [0xF0, 0x90, 0xF0, 0x90, 0xF0,  0xF0, 0x90, 0xF0, 0x10, 0xF0,
   0xF0, 0x90, 0xF0, 0x90, 0x90,  0xE0, 0x90, 0xE0, 0x90, 0xE0]

/-- Glyphs C to F (G6). -/
def Config.glyphsCtoF : List Byte :=
  [0xF0, 0x80, 0x80, 0x80, 0xF0,  0xE0, 0x90, 0x90, 0x90, 0xE0,
   0xF0, 0x80, 0xF0, 0x80, 0xF0,  0xF0, 0x80, 0xF0, 0x80, 0x80]

/-- The default `GLYPH_TABLE` (R6, G6; PRESUMED, log 6). -/
def Config.glyphTable : Vector Byte 80 :=
  ⟨(glyphs0to3 ++ glyphs4to7 ++ glyphs8toB ++ glyphsCtoF).toArray, rfl⟩

/-- The defaults of R6 (log 5 to 8). -/
def Config.params : Params :=
  { programBase := 0x200
    fontBase := 0x000
    glyphTable := Config.glyphTable
    stackDepth := none
    vfOrder := .flagThenResult }

/-- FREE VALUE (log 2): the `random_byte` the host supplies with its `n`-th STEP where the agenda names none
(42_load_alu.md R164, 40_step_cycle.md R117: "the core assumes nothing"). -/
opaque Config.freeRandomByte : Nat → Byte

/-- FREE VALUE (log 2): the `keys` snapshot the host supplies with its `n`-th STEP where the agenda names none
(46_host_operations.md R247, 40_step_cycle.md R117). -/
opaque Config.freeKeys : Nat → BitVec 16

end Sys2Proof
end

