-- ==== Sys2Proof/Syntax.lean ====
section
/-! DEFINITION. The decoded instruction (30_encoding.md R84, R93): one constructor per row of the opcode table, in the
table's order, each with the operands of R82. Constructor names follow the table's mnemonics (log 13). -/

namespace Sys2Proof

/-- "a discriminated union ... each carrying zero to three operands" (R93). -/
inductive Instr where
  /-- `00E0` CLS -/
  | cls
  /-- `00EE` RET -/
  | ret
  /-- `1nnn` JP nnn -/
  | jp (nnn : Addr)
  /-- `2nnn` CALL nnn -/
  | call (nnn : Addr)
  /-- `3xkk` SE Vx, kk -/
  | seVxKk (x : Reg) (kk : Byte)
  /-- `4xkk` SNE Vx, kk -/
  | sneVxKk (x : Reg) (kk : Byte)
  /-- `5xy0` SE Vx, Vy -/
  | seVxVy (x y : Reg)
  /-- `6xkk` LD Vx, kk -/
  | ldVxKk (x : Reg) (kk : Byte)
  /-- `7xkk` ADD Vx, kk -/
  | addVxKk (x : Reg) (kk : Byte)
  /-- `8xy0` LD Vx, Vy -/
  | ldVxVy (x y : Reg)
  /-- `8xy1` OR Vx, Vy -/
  | or (x y : Reg)
  /-- `8xy2` AND Vx, Vy -/
  | and (x y : Reg)
  /-- `8xy3` XOR Vx, Vy -/
  | xor (x y : Reg)
  /-- `8xy4` ADD Vx, Vy -/
  | addVxVy (x y : Reg)
  /-- `8xy5` SUB Vx, Vy -/
  | sub (x y : Reg)
  /-- `8xy6` SHR Vx; `y` is an operand the semantics does not use (R91) -/
  | shr (x y : Reg)
  /-- `8xy7` SUBN Vx, Vy -/
  | subn (x y : Reg)
  /-- `8xyE` SHL Vx; `y` is an operand the semantics does not use (R91) -/
  | shl (x y : Reg)
  /-- `9xy0` SNE Vx, Vy -/
  | sneVxVy (x y : Reg)
  /-- `Annn` LD I, nnn -/
  | ldI (nnn : Addr)
  /-- `Cxkk` RND Vx, kk -/
  | rnd (x : Reg) (kk : Byte)
  /-- `Dxyh` DRW Vx, Vy, h; `h` is a number of rows, 0 to 15 (WellFormed; log 31) -/
  | drw (x y : Reg) (h : Nat)
  /-- `ExA1` SKNP Vx -/
  | sknp (x : Reg)
  /-- `Fx07` LD Vx, DT -/
  | ldVxDt (x : Reg)
  /-- `Fx15` LD DT, Vx -/
  | ldDtVx (x : Reg)
  /-- `Fx18` LD ST, Vx -/
  | ldStVx (x : Reg)
  /-- `Fx1E` ADD I, Vx -/
  | addIVx (x : Reg)
  /-- `Fx29` LD F, Vx -/
  | ldFVx (x : Reg)
  /-- `Fx33` LD B, Vx -/
  | ldBVx (x : Reg)
  /-- `Fx55` LD [I], Vx -/
  | ldMIVx (x : Reg)
  /-- `Fx65` LD Vx, [I] -/
  | ldVxMI (x : Reg)
deriving DecidableEq, Repr

/-- The error kinds of 60_exceptions.md R260, with the info each records. -/
inductive Error where
  /-- code 1: the first address of 4096 or more that was accessed (R261) -/
  | outOfBounds (addr : Nat)
  /-- code 2: the raw word (R262) -/
  | unrecognizedInstruction (w : Word)
  /-- code 3: a return with nothing pushed (R263) -/
  | emptyStack
  /-- code 4: the register range helper given an end before its start (R264, 43_index_memory.md R188) -/
  | invalidRegisterRange
  /-- code 5: the bit utility given an index of 8 or more (R265, 30_encoding.md R94) -/
  | invalidBitIndex
  /-- code 6: a call at a finite STACK_DEPTH (R266) -/
  | stackOverflow
deriving DecidableEq, Repr

/-- The numeric codes of 60_exceptions.md R260 (this spec's; log 33); code 0 is `Ok`. -/
def Error.code : Error → Nat
  | .outOfBounds _ => 1
  | .unrecognizedInstruction _ => 2
  | .emptyStack => 3
  | .invalidRegisterRange => 4
  | .invalidBitIndex => 5
  | .stackOverflow => 6

end Sys2Proof
end

