-- ==== Sys2Proof/WellFormed.lean ====
section
/-! DEFINITION. Which terms of Instr an instruction word can stand for (30_encoding.md R82). Registers, immediates and
addresses are in range by their types; the height is the one operand that needs a check. -/

namespace Sys2Proof

/-- `h = w[3:0]`, "0 to 15" (R82); every other operand is a `u4`, `u8` or `u12` by its type. -/
def Instr.wellFormed : Instr → Bool
  | .drw _ _ h => decide (h ≤ 15)
  | .cls | .ret | .jp _ | .call _ | .seVxKk _ _ | .sneVxKk _ _ | .seVxVy _ _ | .ldVxKk _ _ | .addVxKk _ _
  | .ldVxVy _ _ | .or _ _ | .and _ _ | .xor _ _ | .addVxVy _ _ | .sub _ _ | .shr _ _ | .subn _ _ | .shl _ _
  | .sneVxVy _ _ | .ldI _ | .rnd _ _ | .sknp _ | .ldVxDt _ | .ldDtVx _ | .ldStVx _ | .addIVx _ | .ldFVx _
  | .ldBVx _ | .ldMIVx _ | .ldVxMI _ => true

end Sys2Proof
end

