-- ==== Sys2Proof/Decode.lean ====
section
/-! DEFINITION. The bit fields of a word, the opcode table, the decoder and, after it, the encoder (30_encoding.md R80 to
R94). -/

namespace Sys2Proof

/-! ### The fields of a word (00_scope.md R8, 30_encoding.md R82, R94) -/

/-- `n3 = w[15:12]` -/
def nib3 (w : Word) : BitVec 4 := w.extractLsb' 12 4

/-- `n2 = w[11:8]` -/
def nib2 (w : Word) : BitVec 4 := w.extractLsb' 8 4

/-- `n1 = w[7:4]` -/
def nib1 (w : Word) : BitVec 4 := w.extractLsb' 4 4

/-- `n0 = w[3:0]` -/
def nib0 (w : Word) : BitVec 4 := w.extractLsb' 0 4

/-- The low byte `kk = w[7:0]` -/
def lowByte (w : Word) : Byte := w.extractLsb' 0 8

/-- The low 12 bits `nnn = w[11:0]` -/
def lowAddr (w : Word) : Addr := w.extractLsb' 0 12

/-- "the decomposition of a word into the ordered tuple `(n3, n2, n1, n0)`" (R94) -/
def nibbles (w : Word) : BitVec 4 × BitVec 4 × BitVec 4 × BitVec 4 := (nib3 w, nib2 w, nib1 w, nib0 w)

/-- "register operands = corresponding nibble mapped to a register identifier" (R82, 10_state.md R22) -/
def regOfNibble (n : BitVec 4) : Reg := n.toFin

/-- The nibble that names a register. -/
def nibbleOfReg (r : Reg) : BitVec 4 := BitVec.ofFin r

/-- The word whose bytes in memory are `hi` then `lo`: big-endian (20_memory.md R53, R57). -/
def wordOfBytes (hi lo : Byte) : Word := hi ++ lo

/-- The byte at the lower address of a word in memory (20_memory.md R57). -/
def hiByte (w : Word) : Byte := w.extractLsb' 8 8

/-! ### The decoder -/

/-- Family `8` (R86): the low nibble selects the operation. -/
def decodeAlu (w : Word) (x y : Reg) : Except Error Instr :=
  match nib0 w with
  | 0x0#4 => .ok (.ldVxVy x y)
  | 0x1#4 => .ok (.or x y)
  | 0x2#4 => .ok (.and x y)
  | 0x3#4 => .ok (.xor x y)
  | 0x4#4 => .ok (.addVxVy x y)
  | 0x5#4 => .ok (.sub x y)
  | 0x6#4 => .ok (.shr x y)
  | 0x7#4 => .ok (.subn x y)
  | 0xE#4 => .ok (.shl x y)
  | _ => .error (.unrecognizedInstruction w)

/-- Family `F` (R88): the low byte selects the operation. -/
def decodeMisc (w : Word) (x : Reg) : Except Error Instr :=
  match lowByte w with
  | 0x07#8 => .ok (.ldVxDt x)
  | 0x15#8 => .ok (.ldDtVx x)
  | 0x18#8 => .ok (.ldStVx x)
  | 0x1E#8 => .ok (.addIVx x)
  | 0x29#8 => .ok (.ldFVx x)
  | 0x33#8 => .ok (.ldBVx x)
  | 0x55#8 => .ok (.ldMIVx x)
  | 0x65#8 => .ok (.ldVxMI x)
  | _ => .error (.unrecognizedInstruction w)

/-- Family `0` (R85): only `00E0` and `00EE`. -/
def decodeZero (w : Word) : Except Error Instr :=
  match w with
  | 0x00E0#16 => .ok .cls
  | 0x00EE#16 => .ok .ret
  | _ => .error (.unrecognizedInstruction w)

/-- `decode` (R83): total, a function of the word alone; no match fails with `UnrecognizedInstruction(raw_word)`. -/
def decode (w : Word) : Except Error Instr :=
  let x := regOfNibble (nib2 w)
  let y := regOfNibble (nib1 w)
  let kk := lowByte w
  let nnn := lowAddr w
  match nib3 w with
  | 0x0#4 => decodeZero w
  | 0x1#4 => .ok (.jp nnn)
  | 0x2#4 => .ok (.call nnn)
  | 0x3#4 => .ok (.seVxKk x kk)
  | 0x4#4 => .ok (.sneVxKk x kk)
  | 0x5#4 => if nib0 w = 0x0#4 then .ok (.seVxVy x y) else .error (.unrecognizedInstruction w)
  | 0x6#4 => .ok (.ldVxKk x kk)
  | 0x7#4 => .ok (.addVxKk x kk)
  | 0x8#4 => decodeAlu w x y
  | 0x9#4 => if nib0 w = 0x0#4 then .ok (.sneVxVy x y) else .error (.unrecognizedInstruction w)
  | 0xA#4 => .ok (.ldI nnn)
  | 0xC#4 => .ok (.rnd x kk)
  | 0xD#4 => .ok (.drw x y (nib0 w).toNat)
  | 0xE#4 => if kk = 0xA1#8 then .ok (.sknp x) else .error (.unrecognizedInstruction w)
  | 0xF#4 => decodeMisc w x
  | _ => .error (.unrecognizedInstruction w)

/-- The decoder on an instruction's two bytes as memory holds them, the one at the lower address first (R80,
20_memory.md R57). -/
def decodeBytes (hi lo : Byte) : Except Error Instr := decode (wordOfBytes hi lo)

/-! ### The encoder, from the same formats (R81) and table (R84) -/

/-- Format A: an operation nibble and `nnn`. -/
def formatA (op : BitVec 4) (nnn : Addr) : Word := op ++ nnn

/-- Format I, and format X with the low byte fixed: an operation nibble, `x`, a byte. -/
def formatI (op : BitVec 4) (x : Reg) (kk : Byte) : Word := op ++ nibbleOfReg x ++ kk

/-- Format R, and format D with `h` as the low nibble: an operation nibble, `x`, `y`, a nibble. -/
def formatR (op : BitVec 4) (x y : Reg) (n : BitVec 4) : Word := op ++ nibbleOfReg x ++ nibbleOfReg y ++ n

/-- The word of a well-formed instruction (R84). -/
def encode : Instr → Word
  | .cls => 0x00E0
  | .ret => 0x00EE
  | .jp nnn => formatA 0x1 nnn
  | .call nnn => formatA 0x2 nnn
  | .seVxKk x kk => formatI 0x3 x kk
  | .sneVxKk x kk => formatI 0x4 x kk
  | .seVxVy x y => formatR 0x5 x y 0x0
  | .ldVxKk x kk => formatI 0x6 x kk
  | .addVxKk x kk => formatI 0x7 x kk
  | .ldVxVy x y => formatR 0x8 x y 0x0
  | .or x y => formatR 0x8 x y 0x1
  | .and x y => formatR 0x8 x y 0x2
  | .xor x y => formatR 0x8 x y 0x3
  | .addVxVy x y => formatR 0x8 x y 0x4
  | .sub x y => formatR 0x8 x y 0x5
  | .shr x y => formatR 0x8 x y 0x6
  | .subn x y => formatR 0x8 x y 0x7
  | .shl x y => formatR 0x8 x y 0xE
  | .sneVxVy x y => formatR 0x9 x y 0x0
  | .ldI nnn => formatA 0xA nnn
  | .rnd x kk => formatI 0xC x kk
  | .drw x y h => formatR 0xD x y (BitVec.ofNat 4 h)
  | .sknp x => formatI 0xE x 0xA1
  | .ldVxDt x => formatI 0xF x 0x07
  | .ldDtVx x => formatI 0xF x 0x15
  | .ldStVx x => formatI 0xF x 0x18
  | .addIVx x => formatI 0xF x 0x1E
  | .ldFVx x => formatI 0xF x 0x29
  | .ldBVx x => formatI 0xF x 0x33
  | .ldMIVx x => formatI 0xF x 0x55
  | .ldVxMI x => formatI 0xF x 0x65

/-! ### The opcode table as data (R84): `w & mask == match` selects the row -/

/-- A row of R84: the id, the `match` and the `mask`. -/
structure OpcodeRow where
  id : String
  pattern : Word
  mask : Word
deriving DecidableEq, Repr

/-- The row selects the word. -/
def OpcodeRow.selects (r : OpcodeRow) (w : Word) : Bool := w &&& r.mask == r.pattern

/-- The rows of R84 in families 0 to 7. -/
def opcodeRowsLow : List OpcodeRow :=
  [⟨"CLS", 0x00E0, 0xFFFF⟩, ⟨"RET", 0x00EE, 0xFFFF⟩, ⟨"JP", 0x1000, 0xF000⟩, ⟨"CALL", 0x2000, 0xF000⟩,
   ⟨"SE_VX_KK", 0x3000, 0xF000⟩, ⟨"SNE_VX_KK", 0x4000, 0xF000⟩, ⟨"SE_VX_VY", 0x5000, 0xF00F⟩,
   ⟨"LD_VX_KK", 0x6000, 0xF000⟩, ⟨"ADD_VX_KK", 0x7000, 0xF000⟩]

/-- The rows of R84 in families 8 and 9. -/
def opcodeRowsAlu : List OpcodeRow :=
  [⟨"LD_VX_VY", 0x8000, 0xF00F⟩, ⟨"OR", 0x8001, 0xF00F⟩, ⟨"AND", 0x8002, 0xF00F⟩, ⟨"XOR", 0x8003, 0xF00F⟩,
   ⟨"ADD_VX_VY", 0x8004, 0xF00F⟩, ⟨"SUB", 0x8005, 0xF00F⟩, ⟨"SHR", 0x8006, 0xF00F⟩, ⟨"SUBN", 0x8007, 0xF00F⟩,
   ⟨"SHL", 0x800E, 0xF00F⟩, ⟨"SNE_VX_VY", 0x9000, 0xF00F⟩]

/-- The rows of R84 in families A to F. -/
def opcodeRowsHigh : List OpcodeRow :=
  [⟨"LD_I", 0xA000, 0xF000⟩, ⟨"RND", 0xC000, 0xF000⟩, ⟨"DRW", 0xD000, 0xF000⟩, ⟨"SKNP", 0xE0A1, 0xF0FF⟩,
   ⟨"LD_VX_DT", 0xF007, 0xF0FF⟩, ⟨"LD_DT_VX", 0xF015, 0xF0FF⟩, ⟨"LD_ST_VX", 0xF018, 0xF0FF⟩,
   ⟨"ADD_I_VX", 0xF01E, 0xF0FF⟩, ⟨"LD_F_VX", 0xF029, 0xF0FF⟩, ⟨"LD_B_VX", 0xF033, 0xF0FF⟩,
   ⟨"LD_MI_VX", 0xF055, 0xF0FF⟩, ⟨"LD_VX_MI", 0xF065, 0xF0FF⟩]

/-- The 31 rows of R84, in the table's order. -/
def opcodeTable : List OpcodeRow := opcodeRowsLow ++ opcodeRowsAlu ++ opcodeRowsHigh

/-- The id (first column of R84) of the row an instruction belongs to. -/
def Instr.rowId : Instr → String
  | .cls => "CLS"
  | .ret => "RET"
  | .jp _ => "JP"
  | .call _ => "CALL"
  | .seVxKk _ _ => "SE_VX_KK"
  | .sneVxKk _ _ => "SNE_VX_KK"
  | .seVxVy _ _ => "SE_VX_VY"
  | .ldVxKk _ _ => "LD_VX_KK"
  | .addVxKk _ _ => "ADD_VX_KK"
  | .ldVxVy _ _ => "LD_VX_VY"
  | .or _ _ => "OR"
  | .and _ _ => "AND"
  | .xor _ _ => "XOR"
  | .addVxVy _ _ => "ADD_VX_VY"
  | .sub _ _ => "SUB"
  | .shr _ _ => "SHR"
  | .subn _ _ => "SUBN"
  | .shl _ _ => "SHL"
  | .sneVxVy _ _ => "SNE_VX_VY"
  | .ldI _ => "LD_I"
  | .rnd _ _ => "RND"
  | .drw _ _ _ => "DRW"
  | .sknp _ => "SKNP"
  | .ldVxDt _ => "LD_VX_DT"
  | .ldDtVx _ => "LD_DT_VX"
  | .ldStVx _ => "LD_ST_VX"
  | .addIVx _ => "ADD_I_VX"
  | .ldFVx _ => "LD_F_VX"
  | .ldBVx _ => "LD_B_VX"
  | .ldMIVx _ => "LD_MI_VX"
  | .ldVxMI _ => "LD_VX_MI"

/-! ### What the host's check of the decoder calls -/

/-- The instruction the decoder reads from the word whose low `nbits` bits are those of `w` and whose others are 0,
its two bytes laid out as memory holds them. -/
def decodeTableWord (nbits w : Nat) : Option Instr :=
  let word : Word := BitVec.ofNat 16 (w % 2 ^ nbits)
  (decodeBytes (hiByte word) (lowByte word)).toOption

end Sys2Proof
end

