-- ==== Sys2Proof/Machine/State.lean ====
section
/-! DEFINITION. The state of the block (10_state.md R20), the model's own fields beside it, the state after reset (R37,
70_reset_and_hazards.md R300), and the reasons a step can stop. -/

namespace Sys2Proof.Machine

/-- `MEM` (10_state.md R33): the cells that do not read as an unlisted address does, by rising address (log 29). -/
abbrev Memory := List Host.Cell

/-- `DISP` (10_state.md R34): 32 rows of 64 pixels, `true` is on. -/
abbrev Display := Vector (Vector Bool 64) 32

/-- The `screen_changed` output of a step (40_step_cycle.md R116). -/
inductive ScreenChanged where
  | changed
  | unchanged
deriving DecidableEq, Repr

/-- The operations the host can perform that can change the state (46_host_operations.md R240). -/
inductive HostOp where
  /-- RESET (70_reset_and_hazards.md R300) -/
  | reset
  /-- LOAD_FONT (R241) -/
  | loadFont (table : Vector Byte 80)
  /-- LOAD_PROGRAM (R242) -/
  | loadProgram (bytes : List Byte)
  /-- INIT_PC (R243) -/
  | initPc
  /-- STEP (40_step_cycle.md R110) with its two inputs -/
  | step (randomByte : Byte) (keys : BitVec 16)
  /-- TICK (R246) -/
  | tick
deriving DecidableEq, Repr

/-- The state. The first eight fields are "the whole state of the block" (10_state.md R20); the others are the
model's own. -/
structure State where
  /-- `V[0..15]` (R21) -/
  v : Vector Byte 16
  /-- `PC` (R25) -/
  pc : Word
  /-- `I` (R28) -/
  i : Word
  /-- `STACK` (R29), the top first (log 30) -/
  stack : List Word
  /-- `DT` (R30) -/
  dt : Byte
  /-- `ST` (R31) -/
  st : Byte
  /-- `MEM` (R33) -/
  mem : Memory
  /-- `DISP` (R34) -/
  disp : Display
  /-- the open parameters (00_scope.md R6), constant (log 4) -/
  params : Params
  /-- the `random_byte` input of the STEP in progress (40_step_cycle.md R117) -/
  randomByte : Byte
  /-- the `keys` input of the STEP in progress (46_host_operations.md R247) -/
  keys : BitVec 16
  /-- the `screen_changed` output of the last STEP that reached execute (R116; log 12) -/
  screen : ScreenChanged
  /-- what the host does next, oldest first (46_host_operations.md R252; log 1) -/
  agenda : List HostOp
  /-- how many STEPs took free inputs (log 2) -/
  turn : Nat
deriving DecidableEq, Repr

/-- The reset state for given parameters (10_state.md R37). The font is not in memory. -/
def State.resetWith (p : Params) : State :=
  { v := Vector.replicate 16 0
    pc := p.programBase.setWidth 16
    i := 0
    stack := []
    dt := 0
    st := 0
    mem := []
    disp := Vector.replicate 32 (Vector.replicate 64 false)
    params := p
    randomByte := 0
    keys := 0
    screen := .unchanged
    agenda := []
    turn := 0 }

/-- The machine right after RESET with the default parameters (R37, 70_reset_and_hazards.md R300; log 9, log 10). -/
def State.reset : State := State.resetWith Config.params

/-- The error outcomes of 60_exceptions.md R260. An error ends the operation; `left` is the exact state it leaves
(R269), in which the host may go on (R268). Ending the run here is safe (log 11): the spec advises it (R273), and
nothing is claimed past it. -/
inductive Fault where
  /-- `OutOfBounds(addr)`, raised by fetch, DRW, LD B, LD [I], LD Vx,[I], LOAD_FONT and LOAD_PROGRAM (R261). Safe. -/
  | outOfBounds (addr : Nat) (left : State)
  /-- `UnrecognizedInstruction(w)`, raised by decode (R262). Safe. -/
  | unrecognizedInstruction (w : Word) (left : State)
  /-- `EmptyStack`, raised by RET (R263). Safe. -/
  | emptyStack (left : State)
  /-- `InvalidRegisterRange`, of the range helper; no operation reaches it (R264; log 33). Safe. -/
  | invalidRegisterRange (left : State)
  /-- `InvalidBitIndex`, of the bit utility; no operation reaches it (R265; log 33). Safe. -/
  | invalidBitIndex (left : State)
  /-- `StackOverflow`, raised by CALL at a finite STACK_DEPTH (R266). Safe. -/
  | stackOverflow (left : State)
deriving DecidableEq, Repr

/-- The reasons for giving no meaning. Every instruction has one, so no step refuses. -/
inductive Refusal where
  /-- An instruction without a meaning yet, refused by its arm of exec. Safe: nothing can be claimed past it. -/
  | notModelled (mnemonic : String)
deriving DecidableEq, Repr

/-- The outcome of an operation of this machine. -/
abbrev Outcome := Host.Outcome State Fault Refusal

/-- The kind and info a fault reports (60_exceptions.md R267). -/
def Fault.error : Fault → Error
  | .outOfBounds a _ => .outOfBounds a
  | .unrecognizedInstruction w _ => .unrecognizedInstruction w
  | .emptyStack _ => .emptyStack
  | .invalidRegisterRange _ => .invalidRegisterRange
  | .invalidBitIndex _ => .invalidBitIndex
  | .stackOverflow _ => .stackOverflow

/-- The state an error leaves (60_exceptions.md R269): "an ordinary state" (R268). -/
def Fault.left : Fault → State
  | .outOfBounds _ s => s
  | .unrecognizedInstruction _ s => s
  | .emptyStack s => s
  | .invalidRegisterRange s => s
  | .invalidBitIndex s => s
  | .stackOverflow s => s

end Sys2Proof.Machine
end

