-- ==== Sys2Proof/Machine/Ops.lean ====
section
/-! DEFINITION. The named operations over registers, stack, memory and display, raising an error, and the parts of the
step that surround execute. -/

namespace Sys2Proof.Machine

/-! ### Registers and the other fields: every read and write goes through these -/

/-- `V[x]` (00_scope.md R10). -/
def State.reg (s : State) (x : Reg) : Byte := s.v[x.val]

/-- `V[x] <- b` (R10). No register is hardwired (10_state.md R21). -/
def State.setReg (s : State) (x : Reg) (b : Byte) : State := { s with v := s.v.set x.val b }

/-- `PC <- a` -/
def State.setPc (s : State) (a : Word) : State := { s with pc := a }

/-- `I <- a` -/
def State.setI (s : State) (a : Word) : State := { s with i := a }

/-- The whole stack, top first. -/
def State.setStack (s : State) (l : List Word) : State := { s with stack := l }

/-- `STACK.push(a)` (R10) -/
def State.push (s : State) (a : Word) : State := s.setStack (a :: s.stack)

/-- `DT <- b` -/
def State.setDt (s : State) (b : Byte) : State := { s with dt := b }

/-- `ST <- b` -/
def State.setSt (s : State) (b : Byte) : State := { s with st := b }

/-- `MEM` as a whole. -/
def State.setMem (s : State) (m : Memory) : State := { s with mem := m }

/-- `DISP` as a whole. -/
def State.setDisp (s : State) (d : Display) : State := { s with disp := d }

/-- `screen <- c` (R10) -/
def State.setScreen (s : State) (c : ScreenChanged) : State := { s with screen := c }

/-- The two inputs of a STEP (40_step_cycle.md R110). -/
def State.withInputs (s : State) (rb : Byte) (ks : BitVec 16) : State := { s with randomByte := rb, keys := ks }

/-- The host's coming operations. -/
def State.setAgenda (s : State) (l : List HostOp) : State := { s with agenda := l }

/-- The index of the next free inputs. -/
def State.setTurn (s : State) (n : Nat) : State := { s with turn := n }

/-! ### Raising an error: the nearest thing to taking an exception (60_exceptions.md R267)

No vector, no saved register, no mode: control goes nowhere, and there is no return from it (R272). -/

/-- `raise E(info)` (00_scope.md R11): the operation ends here; every write already made stays made. -/
def raise (e : Error) (s : State) : Outcome :=
  match e with
  | .outOfBounds a => .fault (.outOfBounds a s)
  | .unrecognizedInstruction w => .fault (.unrecognizedInstruction w s)
  | .emptyStack => .fault (.emptyStack s)
  | .invalidRegisterRange => .fault (.invalidRegisterRange s)
  | .invalidBitIndex => .fault (.invalidBitIndex s)
  | .stackOverflow => .fault (.stackOverflow s)

/-- Go on with the result of a check made in state `s`, or raise its error there. -/
def orRaise {α : Type} (r : Except Error α) (s : State) (k : α → Outcome) : Outcome :=
  match r with
  | .ok a => k a
  | .error e => raise e s

/-! ### Memory (20_memory.md) -/

/-- What an unlisted address reads as: "zero-initialized" (10_state.md R33). -/
def Memory.unlisted : Byte := 0

/-- The cell at an address, whether or not the address is valid. -/
def Memory.cell : Memory → Nat → Byte
  | [], _ => Memory.unlisted
  | c :: m, a => if c.1 = a then c.2 else Memory.cell m a

/-- Put a byte at an address, keeping the canonical form. -/
def Memory.put : Memory → Nat → Byte → Memory
  | [], a, b => if b = Memory.unlisted then [] else [(a, b)]
  | c :: m, a, b =>
    if a < c.1 then (if b = Memory.unlisted then c :: m else (a, b) :: c :: m)
    else if a = c.1 then (if b = Memory.unlisted then m else (a, b) :: m)
    else c :: Memory.put m a b

/-- The canonical form: addresses strictly rising, all below 4096, no entry equal to what an unlisted address reads as. -/
abbrev Memory.wf (m : Memory) : Prop :=
  m.Pairwise (fun c d => c.1 < d.1) ∧ ∀ c ∈ m, c.1 < Config.memSize ∧ c.2 ≠ Memory.unlisted

/-- `MemRead(addr, 1)` (R51). -/
def Memory.read (m : Memory) (a : Nat) : Except Error Byte :=
  if a < Config.memSize then .ok (m.cell a) else .error (.outOfBounds a)

/-- `MemWrite(addr, 1, v)` (R52). -/
def Memory.write (m : Memory) (a : Nat) (b : Byte) : Except Error Memory :=
  if a < Config.memSize then .ok (m.put a b) else .error (.outOfBounds a)

/-- `MemRead(addr, 2)` (R53): big-endian, the byte at `addr` read first. -/
def Memory.read16 (m : Memory) (a : Nat) : Except Error Word :=
  match m.read a with
  | .error e => .error e
  | .ok hi =>
    match m.read (a + 1) with
    | .error e => .error e
    | .ok lo => .ok (wordOfBytes hi lo)

/-- `MemWriteBytes(addr, bytes)` (R54): ascending; the memory reached and, if a byte had no place, the error. The bytes
before the failing one stay. -/
def Memory.writeBytes : Memory → Nat → List Byte → Memory × Option Error
  | m, _, [] => (m, none)
  | m, a, b :: bs =>
    match m.write a b with
    | .ok m' => Memory.writeBytes m' (a + 1) bs
    | .error e => (m, some e)

/-- `MemReadSprite(addr, h)` (R55): ascending; with `h = 0` nothing is read. -/
def Memory.readSprite (m : Memory) : Nat → Nat → Except Error (List Byte)
  | _, 0 => .ok []
  | a, h + 1 =>
    match m.read a with
    | .error e => .error e
    | .ok row =>
      match Memory.readSprite m (a + 1) h with
      | .error e => .error e
      | .ok rows => .ok (row :: rows)

/-- A bulk write as an operation on the state (R54, 00_scope.md R11). -/
def storeBytes (a : Nat) (bytes : List Byte) (s : State) : Outcome :=
  match s.mem.writeBytes a bytes with
  | (m, none) => .next (s.setMem m)
  | (m, some e) => raise e (s.setMem m)

/-- `V[k] <- MemRead(base + k, 1)` for the given registers in order (43_index_memory.md R187); the registers before the
failing address keep what was loaded (log 21). -/
def loadRegs (base : Nat) : List Reg → State → Outcome
  | [], s => .next s
  | k :: ks, s =>
    match s.mem.read (base + k.val) with
    | .ok b => loadRegs base ks (s.setReg k b)
    | .error e => raise e s

/-! ### The display (10_state.md R34) -/

/-- `DISP[y][x]`; a coordinate outside the screen names no pixel and shows as off. -/
def Display.pixel (d : Display) (x y : Nat) : Bool :=
  if h : y < 32 ∧ x < 64 then (d[y]'h.1)[x]'h.2 else false

/-- `DISP[y][x] <- DISP[y][x] ^ 1` -/
def Display.flip (d : Display) (x y : Nat) : Display :=
  if h : y < 32 ∧ x < 64 then d.set y ((d[y]'h.1).set x (!(d[y]'h.1)[x]'h.2) h.2) h.1 else d

/-- "sets every pixel off" (44_display.md R201) -/
def Display.clear : Display := Vector.replicate 32 (Vector.replicate 64 false)

/-! ### Fetch and increment (40_step_cycle.md R111, R113) -/

/-- Fetch (R111): the word at `PC`. -/
def fetch (s : State) : Except Error Word := s.mem.read16 s.pc.toNat

/-- What a step does after a successful decode and before execute: `PC <- (PC + 2) mod 65536` (R113); its inputs are
those of this step and `screen <- Unchanged` (R110). -/
def beginExecute (rb : Byte) (ks : BitVec 16) (s : State) : State :=
  ((s.withInputs rb ks).setScreen .unchanged).setPc (s.pc + 2)

/-- Store a word big-endian at an address; nothing where it does not fit. -/
def State.putWord (s : State) (a : Nat) (w : Word) : State :=
  s.setMem (s.mem.writeBytes a [hiByte w, lowByte w]).1

end Sys2Proof.Machine
end

