-- ==== Sys2Proof/Machine/Operands.lean ====
section
/-! DEFINITION. The operand forms (30_encoding.md R82) and the values instructions compute from them. -/

namespace Sys2Proof.Machine

/-- `zext_16(nnn)`: an absolute byte address (R82, 43_index_memory.md R181). -/
def addrWord (nnn : Addr) : Word := nnn.setWidth 16

/-- `zext_16(v)` of a byte (R82, R182). -/
def byteWord (b : Byte) : Word := b.setWidth 16

/-- The base address `I` of a data access, a natural: `I + k` never wraps (43_index_memory.md R180, 20_memory.md R60). -/
def State.base (s : State) : Nat := s.i.toNat

/-- `bit(b, n)` (30_encoding.md R94): "failing with an `InvalidBitIndex` condition if n ≥ 8". -/
def bit (b : Byte) (n : Nat) : Except Error Bool :=
  if n < 8 then .ok (b.getLsbD n) else .error .invalidBitIndex

/-- `pressed(keys, k)` (46_host_operations.md R247): `k <= 15 and keys[k] == 1`. -/
def pressed (keys : BitVec 16) (k : Byte) : Bool := decide (k.toNat ≤ 15) && keys.getLsbD k.toNat

/-- The range helper (43_index_memory.md R188): the ascending list from `a` to `b`. -/
def regRange (a b : Reg) : Except Error (List Reg) :=
  if b < a then .error .invalidRegisterRange
  else .ok ((List.finRange 16).filter fun r => decide (a ≤ r) && decide (r ≤ b))

/-- The digits `Fx33` stores, hundreds, tens, ones (43_index_memory.md R184). -/
def bcd (b : Byte) : List Byte :=
  [BitVec.ofNat 8 (b.toNat / 100), BitVec.ofNat 8 (b.toNat / 10 % 10), BitVec.ofNat 8 (b.toNat % 10)]

/-- The address of the glyph of a "digit" (43_index_memory.md R183): `FONT_BASE + 5 * vx`, not masked. -/
def glyphAddr (fontBase : Addr) (digit : Byte) : Word :=
  BitVec.ofNat 16 (fontBase.toNat + Config.glyphBytes * digit.toNat)

/-- A skip (40_step_cycle.md R110, 41_control_flow.md R134): `PC <- (PC + 2) mod 65536` when the condition holds. -/
def skipIf (c : Bool) (s : State) : State := s.setPc (if c then s.pc + 2 else s.pc)

end Sys2Proof.Machine
end

