-- ==== Sys2Proof/Machine/Flags.lean ====
section
/-! DEFINITION. Every value VF takes as a flag (10_state.md R23) and the order of the two writes (R24, 42_load_alu.md
R163). -/

namespace Sys2Proof.Machine

/-- A flag as VF holds it: 1 or 0. -/
def flagByte (f : Bool) : Byte := if f then 1 else 0

/-- Carry out of `8xy4` (42_load_alu.md R158): the sum is over 255. -/
def carryOut (a b : Byte) : Bool := decide (255 < a.toNat + b.toNat)

/-- No borrow in `a - b` (R159, R161): 1 when `a >= b`. -/
def noBorrow (a b : Byte) : Bool := decide (b.toNat ≤ a.toNat)

/-- The bit `8xy6` shifts out (R160): bit 0. -/
def shiftedOutRight (a : Byte) : Bool := a.getLsbD 0

/-- The bit `8xyE` shifts out (R162): bit 7. -/
def shiftedOutLeft (a : Byte) : Bool := a.getLsbD 7

/-- `VF <- f` -/
def State.setFlag (s : State) (f : Bool) : State := s.setReg Reg.vf (flagByte f)

/-- `VF <- f` and then `V[x] <- res`: the order of the shifts (R160, R162). -/
def flagThenResult (x : Reg) (res : Byte) (f : Bool) (s : State) : State := (s.setFlag f).setReg x res

/-- `write_result_and_flag(x, res, f)` (R163), in the order `VF_ORDER_ARITH` chooses. -/
def writeResultAndFlag (x : Reg) (res : Byte) (f : Bool) (s : State) : State :=
  match s.params.vfOrder with
  | .flagThenResult => flagThenResult x res f s
  | .resultThenFlag => (s.setReg x res).setFlag f

end Sys2Proof.Machine
end

