-- ==== Sys2Proof/Machine/Alu.lean ====
section
/-! DEFINITION. Register load, arithmetic, logic, shift and random (42_load_alu.md). Results are reduced modulo 256
(R150); operands are sampled before any write (00_scope.md R12). -/

namespace Sys2Proof.Machine

/-- LD Vx, kk (R151). -/
def execLdVxKk (x : Reg) (kk : Byte) (s : State) : Outcome := .next (s.setReg x kk)

/-- ADD Vx, kk (R152): wraps, no flag. -/
def execAddVxKk (x : Reg) (kk : Byte) (s : State) : Outcome := .next (s.setReg x (s.reg x + kk))

/-- LD Vx, Vy (R154). -/
def execLdVxVy (x y : Reg) (s : State) : Outcome := .next (s.setReg x (s.reg y))

/-- OR Vx, Vy (R155). -/
def execOr (x y : Reg) (s : State) : Outcome := .next (s.setReg x (s.reg x ||| s.reg y))

/-- AND Vx, Vy (R156). -/
def execAnd (x y : Reg) (s : State) : Outcome := .next (s.setReg x (s.reg x &&& s.reg y))

/-- XOR Vx, Vy (R157). -/
def execXor (x y : Reg) (s : State) : Outcome := .next (s.setReg x (s.reg x ^^^ s.reg y))

/-- ADD Vx, Vy (R158): VF is the carry out. -/
def execAddVxVy (x y : Reg) (s : State) : Outcome :=
  .next (writeResultAndFlag x (s.reg x + s.reg y) (carryOut (s.reg x) (s.reg y)) s)

/-- SUB Vx, Vy (R159): VF is 1 when no borrow occurs. -/
def execSub (x y : Reg) (s : State) : Outcome :=
  .next (writeResultAndFlag x (s.reg x - s.reg y) (noBorrow (s.reg x) (s.reg y)) s)

/-- SHR Vx (R160): `V[x]` in place, the flag written first; `y` is not used. -/
def execShr (x _y : Reg) (s : State) : Outcome :=
  .next (flagThenResult x (s.reg x >>> 1) (shiftedOutRight (s.reg x)) s)

/-- SUBN Vx, Vy (R161): `V[y] - V[x]`. -/
def execSubn (x y : Reg) (s : State) : Outcome :=
  .next (writeResultAndFlag x (s.reg y - s.reg x) (noBorrow (s.reg y) (s.reg x)) s)

/-- SHL Vx (R162): `V[x]` in place, the flag written first; `y` is not used. -/
def execShl (x _y : Reg) (s : State) : Outcome :=
  .next (flagThenResult x (s.reg x <<< 1) (shiftedOutLeft (s.reg x)) s)

/-- RND Vx, kk (R164): `random_byte & kk`. -/
def execRnd (x : Reg) (kk : Byte) (s : State) : Outcome := .next (s.setReg x (s.randomByte &&& kk))

end Sys2Proof.Machine
end

