-- ==== Sys2Proof/Machine/Control.lean ====
section
/-! DEFINITION. Control transfer (41_control_flow.md). `PC` already holds this instruction's address plus 2 (R130). -/

namespace Sys2Proof.Machine

/-- RET (R131). -/
def execRet (s : State) : Outcome :=
  match s.stack with
  | [] => raise .emptyStack s
  | a :: rest => .next ((s.setStack rest).setPc a)

/-- JP nnn (R132). -/
def execJp (nnn : Addr) (s : State) : Outcome := .next (s.setPc (addrWord nnn))

/-- CALL nnn (R133): pushes the already advanced `PC`. -/
def execCall (nnn : Addr) (s : State) : Outcome :=
  if s.params.stackDepth = some s.stack.length then raise .stackOverflow s
  else .next ((s.push s.pc).setPc (addrWord nnn))

/-- SE Vx, kk (R134). -/
def execSeVxKk (x : Reg) (kk : Byte) (s : State) : Outcome := .next (skipIf (s.reg x == kk) s)

/-- SNE Vx, kk (R135). -/
def execSneVxKk (x : Reg) (kk : Byte) (s : State) : Outcome := .next (skipIf (s.reg x != kk) s)

/-- SE Vx, Vy (R136). -/
def execSeVxVy (x y : Reg) (s : State) : Outcome := .next (skipIf (s.reg x == s.reg y) s)

/-- SNE Vx, Vy (R137). -/
def execSneVxVy (x y : Reg) (s : State) : Outcome := .next (skipIf (s.reg x != s.reg y) s)

/-- SKNP Vx (R138). -/
def execSknp (x : Reg) (s : State) : Outcome := .next (skipIf (!pressed s.keys (s.reg x)) s)

end Sys2Proof.Machine
end

