-- ==== Sys2Proof/Machine/Index.lean ====
section
/-! DEFINITION. Index register and memory (43_index_memory.md). None of the memory instructions changes `I` (R186). -/

namespace Sys2Proof.Machine

/-- LD I, nnn (R181). -/
def execLdI (nnn : Addr) (s : State) : Outcome := .next (s.setI (addrWord nnn))

/-- ADD I, Vx (R182): wraps modulo 65536, no flag. -/
def execAddIVx (x : Reg) (s : State) : Outcome := .next (s.setI (s.i + byteWord (s.reg x)))

/-- LD F, Vx (R183). -/
def execLdFVx (x : Reg) (s : State) : Outcome := .next (s.setI (glyphAddr s.params.fontBase (s.reg x)))

/-- LD B, Vx (R184). -/
def execLdBVx (x : Reg) (s : State) : Outcome := storeBytes s.base (bcd (s.reg x)) s

/-- LD [I], Vx (R185): registers `V0` to `V[x]`, ascending. -/
def execLdMIVx (x : Reg) (s : State) : Outcome :=
  orRaise (regRange 0 x) s fun ks => storeBytes s.base (ks.map s.reg) s

/-- LD Vx, [I] (R187): registers `V0` to `V[x]`, ascending. -/
def execLdVxMI (x : Reg) (s : State) : Outcome :=
  orRaise (regRange 0 x) s fun ks => loadRegs s.base ks s

end Sys2Proof.Machine
end

