-- ==== Sys2Proof/Machine/Screen.lean ====
section
/-! DEFINITION. The display instructions and the sprite blitter (44_display.md). -/

namespace Sys2Proof.Machine

/-- One target pixel of a set sprite bit (R203): dropped outside the screen (R205), else flipped, with `unset` when it
was on. -/
def blitPixel (px py : Nat) (acc : Display × Bool) : Display × Bool :=
  if px < Config.dispW ∧ py < Config.dispH then (acc.1.flip px py, acc.2 || acc.1.pixel px py) else acc

/-- One sprite row at row `py` (R203): columns `c` = 0 to 7, bit `7 - c` leftmost first. -/
def blitRow (x0 py : Nat) (row : Byte) (acc : Display × Bool) : Display × Bool :=
  (List.range Config.spriteW).foldl
    (fun acc c => if bit row (7 - c) = .ok true then blitPixel (x0 + c) py acc else acc) acc

/-- The rows of a sprite from row `py` down (R203). -/
def blitRows (x0 : Nat) : Nat → List Byte → Display × Bool → Display × Bool
  | _, [], acc => acc
  | py, row :: rows, acc => blitRows x0 (py + 1) rows (blitRow x0 py row acc)

/-- `Blit(x0, y0, rows)` (R203): the display after, and whether any pixel went from on to off. -/
def blit (x0 y0 : Nat) (rows : List Byte) (d : Display) : Display × Bool := blitRows x0 y0 rows (d, false)

/-- CLS (R201). -/
def execCls (s : State) : Outcome := .next ((s.setDisp Display.clear).setScreen .changed)

/-- DRW Vx, Vy, h (R202, R204, R205): all rows are read before any pixel is drawn. -/
def execDrw (x y : Reg) (h : Nat) (s : State) : Outcome :=
  orRaise (s.mem.readSprite s.base h) s fun rows =>
    .next (((s.setDisp (blit (s.reg x).toNat (s.reg y).toNat rows s.disp).1).setFlag
      (blit (s.reg x).toNat (s.reg y).toNat rows s.disp).2).setScreen .changed)

end Sys2Proof.Machine
end

