-- ==== Sys2Proof/Machine/Timer.lean ====
section
/-! DEFINITION. Timer instructions (45_timers.md). -/

namespace Sys2Proof.Machine

/-- LD Vx, DT (R221). -/
def execLdVxDt (x : Reg) (s : State) : Outcome := .next (s.setReg x s.dt)

/-- LD DT, Vx (R222). -/
def execLdDtVx (x : Reg) (s : State) : Outcome := .next (s.setDt (s.reg x))

/-- LD ST, Vx (R223). -/
def execLdStVx (x : Reg) (s : State) : Outcome := .next (s.setSt (s.reg x))

end Sys2Proof.Machine
end

