-- ==== Sys2Proof/Machine/HostOps.lean ====
section
/-! DEFINITION. The operations of the host other than STEP, and the views it has (46_host_operations.md,
70_reset_and_hazards.md R300). -/

namespace Sys2Proof.Machine

/-- RESET (70_reset_and_hazards.md R300): every piece of the block's state at its reset value. The parameters are
constants of the block; the agenda and the free values' index are the host's and go on. -/
def hostReset (s : State) : State := ((State.resetWith s.params).setAgenda s.agenda).setTurn s.turn

/-- LOAD_FONT(`glyph_table`) (R241). -/
def hostLoadFont (table : Vector Byte 80) (s : State) : Outcome :=
  storeBytes s.params.fontBase.toNat table.toList s

/-- LOAD_PROGRAM(`bytes`) (R242). -/
def hostLoadProgram (bytes : List Byte) (s : State) : Outcome :=
  storeBytes s.params.programBase.toNat bytes s

/-- INIT_PC (R243). -/
def hostInitPc (s : State) : State := s.setPc (s.params.programBase.setWidth 16)

/-- A timer counted down, stopping at 0 (R246). -/
def countDown (b : Byte) : Byte := if b = 0 then 0 else b - 1

/-- TICK (R246): both timers. -/
def hostTick (s : State) : State := (s.setDt (countDown s.dt)).setSt (countDown s.st)

/-- The display view (R245): `view(x, y) = DISP[y][x]`. -/
def State.view (s : State) (x : Fin 64) (y : Fin 32) : Bool := s.disp.pixel x.val y.val

/-- The view as a flat sequence, row-major: element `64 * y + x` (R245, 10_state.md R34; log 32). -/
def State.flatView (s : State) (n : Fin 2048) : Bool := s.disp.pixel (n.val % 64) (n.val / 64)

/-- The `sound_active` output (R248). -/
def State.soundActive (s : State) : Bool := s.st != 0

/-- What the host does before the first step (70_reset_and_hazards.md R302), with the block's glyph table. -/
def bootOps (p : Params) (program : List Byte) : List HostOp :=
  [.reset, .loadFont p.glyphTable, .loadProgram program, .initPc]

/-- Whether an operation is a STEP. -/
def HostOp.isStep : HostOp → Bool
  | .step _ _ => true
  | .reset | .loadFont _ | .loadProgram _ | .initPc | .tick => false

/-- The state in which the very next step fetches at `PC`: the host's operations before its next STEP are put aside, and
a `PC` from which no word can be fetched (R111) is 0. -/
def readyToFetch (s : State) : State :=
  (s.setAgenda (s.agenda.dropWhile fun op => !op.isStep)).setPc (if s.pc.toNat < 4095 then s.pc else 0)

end Sys2Proof.Machine
end

