-- ==== Sys2Proof/Machine/Step.lean ====
section
/-! DEFINITION. The STEP operation (40_step_cycle.md R110), every operation of the host (46_host_operations.md R240), and
the step of the machine: the host's next operation. -/

namespace Sys2Proof.Machine

/-- STEP(`random_byte`, `keys`) (R110): fetch, decode, increment, execute. Errors of fetch and decode leave the whole
state as it was (R111, R112, R115). -/
def stepOp (rb : Byte) (ks : BitVec 16) (s : State) : Outcome :=
  match fetch s with
  | .error e => raise e s
  | .ok w =>
    match decode w with
    | .error e => raise e s
    | .ok i => exec i (beginExecute rb ks s)

/-- An operation of the host (46_host_operations.md R240). -/
def perform (op : HostOp) (s : State) : Outcome :=
  match op with
  | .reset => .next (hostReset s)
  | .loadFont table => hostLoadFont table s
  | .loadProgram bytes => hostLoadProgram bytes s
  | .initPc => .next (hostInitPc s)
  | .step rb ks => stepOp rb ks s
  | .tick => .next (hostTick s)

/-- The host's next operation: the oldest of the agenda (R252; log 1), or, where the agenda is empty, a STEP with free
inputs (log 2). -/
def step (s : State) : Host.Outcome State Fault Refusal :=
  match s.agenda with
  | [] => stepOp (Config.freeRandomByte s.turn) (Config.freeKeys s.turn) (s.setTurn (s.turn + 1))
  | op :: rest => perform op (s.setAgenda rest)

/-- `s` with an instruction word stored, big-endian, where step fetches its next instruction (log 28). -/
def State.withFetchWord (s : State) (nbits w : Nat) : State :=
  (readyToFetch s).putWord (readyToFetch s).pc.toNat (BitVec.ofNat 16 (w % 2 ^ nbits))

end Sys2Proof.Machine
end

