-- ==== Sys2Proof/Safety.lean ====
section
/-! DEFINITION. The terms claims use: what an operation may leave changed, the invariant of reachable states, the errors
the rules foresee, and which pixels a sprite visits. -/

namespace Sys2Proof.Machine

/-! ### Frames -/

/-- The pieces of state beside the general registers that an operation may change. -/
inductive Part where
  | pc | i | stack | dt | st | mem | disp | screen
deriving DecidableEq, Repr

/-- `t` agrees with `s` on every register but those of `regs`, on every piece of state but those of `parts` (on memory:
every address reads the same), and on the model's own parameters, inputs and agenda. -/
def State.sameBut (parts : List Part) (regs : List Reg) (s t : State) : Prop :=
  (∀ r, r ∉ regs → t.reg r = s.reg r) ∧
  (.pc ∉ parts → t.pc = s.pc) ∧
  (.i ∉ parts → t.i = s.i) ∧
  (.stack ∉ parts → t.stack = s.stack) ∧
  (.dt ∉ parts → t.dt = s.dt) ∧
  (.st ∉ parts → t.st = s.st) ∧
  (.mem ∉ parts → ∀ a, t.mem.read a = s.mem.read a) ∧
  (.disp ∉ parts → t.disp = s.disp) ∧
  (.screen ∉ parts → t.screen = s.screen) ∧
  t.params = s.params ∧ t.randomByte = s.randomByte ∧ t.keys = s.keys ∧ t.agenda = s.agenda ∧ t.turn = s.turn

/-- The `n` bytes from `a` up to the end of memory read as `bytes` in `t`, and every other address reads as in `s`:
what a bulk write of `bytes` at `a` leaves (20_memory.md R54). -/
def State.stored (a : Nat) (bytes : List Byte) (s t : State) : Prop :=
  (∀ k b, bytes[k]? = some b → a + k < 4096 → t.mem.read (a + k) = .ok b) ∧
  (∀ c, (c < a ∨ a + bytes.length ≤ c) → t.mem.read c = s.mem.read c)

/-- The state from which the host may go on after an operation (60_exceptions.md R268): the next state, or the one an
error left. -/
def stateAfter (o : Outcome) : Option State :=
  match o with
  | .next t => some t
  | .fault f => some f.left
  | .refused _ => none

/-- Apply a change to the state a fault leaves. -/
def Fault.mapLeft (g : State → State) : Fault → Fault
  | .outOfBounds a s => .outOfBounds a (g s)
  | .unrecognizedInstruction w s => .unrecognizedInstruction w (g s)
  | .emptyStack s => .emptyStack (g s)
  | .invalidRegisterRange s => .invalidRegisterRange (g s)
  | .invalidBitIndex s => .invalidBitIndex (g s)
  | .stackOverflow s => .stackOverflow (g s)

/-- Apply a change to the state of an outcome. -/
def mapOutcome (g : State → State) (o : Outcome) : Outcome :=
  match o with
  | .next t => .next (g t)
  | .fault f => .fault (f.mapLeft g)
  | .refused r => .refused r

/-- The same machine with another `VF_ORDER_ARITH`. -/
def State.withVfOrder (s : State) (o : VfOrder) : State := { s with params := { s.params with vfOrder := o } }

/-! ### The invariant of reachable states -/

/-- No more entries than a finite STACK_DEPTH. -/
def State.depthOk (s : State) : Bool :=
  match s.params.stackDepth with
  | none => true
  | some n => decide (s.stack.length ≤ n)

/-- Memory is canonical, `PC` and the stack entries are in the bounds of 10_state.md R27, the stack keeps its depth, and
the parameters meet 00_scope.md R6. -/
abbrev State.Inv (s : State) : Prop :=
  s.mem.wf ∧ s.pc.toNat ≤ 4098 ∧ (∀ a ∈ s.stack, a.toNat ≤ 4096) ∧ s.depthOk = true ∧ s.params.wf

/-! ### Errors -/

/-- The error of an ascending access to `n` bytes from `a`: the first address of 4096 or more (60_exceptions.md R261). -/
def accessError (a n : Nat) : Option Error :=
  if n = 0 ∨ a + n ≤ 4096 then none else some (.outOfBounds (max a 4096))

/-- The error an instruction raises in a state, from the list of causes in 60_exceptions.md R261, R263 and R266. -/
def foreseenError (s : State) : Instr → Option Error
  | .ret => if s.stack = [] then some .emptyStack else none
  | .call _ => if s.params.stackDepth = some s.stack.length then some .stackOverflow else none
  | .drw _ _ h => accessError s.i.toNat h
  | .ldBVx _ => accessError s.i.toNat 3
  | .ldMIVx x | .ldVxMI x => accessError s.i.toNat (x.val + 1)
  | .cls | .jp _ | .seVxKk _ _ | .sneVxKk _ _ | .seVxVy _ _ | .ldVxKk _ _ | .addVxKk _ _
  | .ldVxVy _ _ | .or _ _ | .and _ _ | .xor _ _ | .addVxVy _ _ | .sub _ _ | .shr _ _ | .subn _ _ | .shl _ _
  | .sneVxVy _ _ | .ldI _ | .rnd _ _ | .sknp _ | .ldVxDt _ | .ldDtVx _ | .ldStVx _ | .addIVx _ | .ldFVx _ => none

/-- The words 30_encoding.md R90 lists as illegal, family by family. -/
def illegalWord (w : Word) : Bool :=
  (nib3 w == 0x0 && w != 0x00E0 && w != 0x00EE) ||
  (nib3 w == 0x5 && nib0 w != 0x0) ||
  (nib3 w == 0x8 && [0x8#4, 0x9#4, 0xA#4, 0xB#4, 0xC#4, 0xD#4, 0xF#4].contains (nib0 w)) ||
  (nib3 w == 0x9 && nib0 w != 0x0) ||
  nib3 w == 0xB ||
  (nib3 w == 0xE && lowByte w != 0xA1) ||
  (nib3 w == 0xF && !([0x07#8, 0x15#8, 0x18#8, 0x1E#8, 0x29#8, 0x33#8, 0x55#8, 0x65#8].contains (lowByte w)))

/-! ### Who writes what (10_state.md R20, R23, R26) -/

/-- The registers an instruction may write, its own destination and VF where it sets the flag (R20, R23). -/
def mayWriteReg (r : Reg) : Instr → Bool
  | .ldVxKk x _ | .addVxKk x _ | .ldVxVy x _ | .or x _ | .and x _ | .xor x _ | .rnd x _ | .ldVxDt x => r == x
  | .addVxVy x _ | .sub x _ | .shr x _ | .subn x _ | .shl x _ => r == x || r == Reg.vf
  | .drw _ _ _ => r == Reg.vf
  | .ldVxMI x => decide (r ≤ x)
  | .cls | .ret | .jp _ | .call _ | .seVxKk _ _ | .sneVxKk _ _ | .seVxVy _ _ | .sneVxVy _ _ | .sknp _ | .ldI _
  | .ldDtVx _ | .ldStVx _ | .addIVx _ | .ldFVx _ | .ldBVx _ | .ldMIVx _ => false

/-- Whether an instruction is a skip whose condition holds in a state (41_control_flow.md R134 to R138). -/
def skips (s : State) : Instr → Bool
  | .seVxKk x kk => s.reg x == kk
  | .sneVxKk x kk => s.reg x != kk
  | .seVxVy x y => s.reg x == s.reg y
  | .sneVxVy x y => s.reg x != s.reg y
  | .sknp x => !pressed s.keys (s.reg x)
  | .cls | .ret | .jp _ | .call _ | .ldVxKk _ _ | .addVxKk _ _ | .ldVxVy _ _ | .or _ _ | .and _ _ | .xor _ _
  | .addVxVy _ _ | .sub _ _ | .shr _ _ | .subn _ _ | .shl _ _ | .ldI _ | .rnd _ _ | .drw _ _ _ | .ldVxDt _
  | .ldDtVx _ | .ldStVx _ | .addIVx _ | .ldFVx _ | .ldBVx _ | .ldMIVx _ | .ldVxMI _ => false

/-! ### Sprites -/

/-- A pixel a sprite at (`x0`, `y0`) visits: "one with its sprite bit set and its target on the screen" (44_display.md
R206, R203). Bit 7 of a row is its leftmost pixel. -/
def Visited (x0 y0 : Nat) (rows : List Byte) (x y : Nat) : Prop :=
  x < 64 ∧ y < 32 ∧
    ∃ r c row, rows[r]? = some row ∧ c < 8 ∧ row.getLsbD (7 - c) = true ∧ x = x0 + c ∧ y = y0 + r

end Sys2Proof.Machine
end

