-- ==== Sys2Proof/Certificates/Slice0/Obligations.lean ====
section
/-! DEFINITION. The statements for the provers. Where a clause rests on a choice the spec marks as its own decision (D<n> of
92_eei_decisions.md) or as general knowledge (G<n> of 93_implementation_defined.md), or on a choice of this model (log
<n>), the docstring says so. -/

open Sys2Proof Sys2Proof.Machine

/-! ### Encoding -/

/-- Ten words of the families 0, 2, 6, 8, 9, A, D, E and F written out from 30_encoding.md R84 decode to the instruction they
stand for, and 0xFFFF to its error; the first five are the document's own examples (95_test_vectors.md S6). Which operation
0x812E, 0xF415 and 0xFA65 select is R86, which the spec derives, and R88, which it takes from general knowledge (its
decision D21; PRESUMED, log 14). -/
def Obligations.WrittenOutWordsDecode : Prop :=
  decode 0x00E0 = .ok .cls ∧ decode 0xA22A = .ok (.ldI 0x22A) ∧ decode 0x6123 = .ok (.ldVxKk 1 0x23) ∧
  decode 0xD123 = .ok (.drw 1 2 3) ∧ decode 0xFFFF = .error (.unrecognizedInstruction 0xFFFF) ∧
  decode 0x2345 = .ok (.call 0x345) ∧ decode 0x812E = .ok (.shl 1 2) ∧ decode 0xE5A1 = .ok (.sknp 5) ∧
  decode 0xF415 = .ok (.ldDtVx 4) ∧ decode 0xFA65 = .ok (.ldVxMI 0xA) ∧ decode 0x9AB0 = .ok (.sneVxVy 0xA 0xB)

/-- Decoding the word of a well-formed instruction gives it back, with every operand at every value. -/
def Obligations.DecodeOfEncodeIsIdentity : Prop :=
  ∀ i : Instr, i.wellFormed = true → decode (encode i) = .ok i

/-- Each legal word has one meaning and no bit of it is dropped (R91: every bit is part of the match or of an operand). -/
def Obligations.EncodeOfDecodeIsIdentity : Prop :=
  ∀ (w : Word) (i : Instr), decode w = .ok i → i.wellFormed = true ∧ encode i = w

/-- The decoder follows the opcode table of R84 read as masks and matches: it gives an instruction of a row exactly when
that row selects the word. -/
def Obligations.DecodeFollowsOpcodeTable : Prop :=
  ∀ w : Word,
    (∀ i, decode w = .ok i → ∃ r ∈ opcodeTable, r.id = i.rowId ∧ r.selects w = true) ∧
    (∀ r ∈ opcodeTable, r.selects w = true → ∃ i, decode w = .ok i ∧ i.rowId = r.id)

/-- "The patterns of rule R84 are pairwise disjoint (no word matches two)" (R83, which marks it derived). -/
def Obligations.OpcodeRowsAreDisjoint : Prop :=
  ∀ w : Word, ∀ r ∈ opcodeTable, ∀ q ∈ opcodeTable, r.selects w = true → q.selects w = true → r = q

/-- Exactly the words R90 lists are rejected, each with the raw word, and decode has no other error. That the list is as
long as it is, is the spec's decision D1. -/
def Obligations.IllegalWordsAreRejected : Prop :=
  ∀ w : Word,
    (illegalWord w = true → decode w = .error (.unrecognizedInstruction w)) ∧
    (illegalWord w = false → ∃ i, decode w = .ok i)

/-! ### Memory -/

/-- R52: what a byte write changes, and the document's law of a write and a read. -/
def Obligations.ByteWriteThenRead : Prop :=
  ∀ (m : Memory) (a : Nat) (b : Byte), m.wf →
    (a < 4096 → ∃ m', m.write a b = .ok m' ∧ m'.read a = .ok b ∧ ∀ c, c ≠ a → m'.read c = m.read c) ∧
    (4096 ≤ a → m.write a b = .error (.outOfBounds a) ∧ m.read a = .error (.outOfBounds a))

/-- R53: the big-endian read of two bytes, and the address its error names. -/
def Obligations.WordReadIsBigEndian : Prop :=
  ∀ (m : Memory) (a : Nat),
    (a + 1 < 4096 → ∃ hi lo w, m.read a = .ok hi ∧ m.read (a + 1) = .ok lo ∧ m.read16 a = .ok w ∧
      w = (hi.setWidth 16 <<< 8) ||| lo.setWidth 16) ∧
    (a = 4095 → m.read16 a = .error (.outOfBounds 4096)) ∧
    (4096 ≤ a → m.read16 a = .error (.outOfBounds a))

/-- R54: the bulk write is ascending, stops at the first address without a cell, and keeps the bytes before it. -/
def Obligations.BulkWriteKeepsBytesBeforeFailure : Prop :=
  ∀ (m : Memory) (a : Nat) (bytes : List Byte), m.wf →
    (∀ k b, bytes[k]? = some b → a + k < 4096 → (m.writeBytes a bytes).1.read (a + k) = .ok b) ∧
    (∀ c, (c < a ∨ a + bytes.length ≤ c) → (m.writeBytes a bytes).1.read c = m.read c) ∧
    (m.writeBytes a bytes).2 = accessError a bytes.length

/-- R55: the sprite read, and that a failing one comes before any pixel is drawn. -/
def Obligations.SpriteReadIsWholeBeforeDrawing : Prop :=
  ∀ (s : State) (x y : Reg) (h : Nat),
    ((h = 0 ∨ s.i.toNat + h ≤ 4096) → ∃ rows, s.mem.readSprite s.i.toNat h = .ok rows ∧ rows.length = h ∧
      ∀ r row, rows[r]? = some row → s.mem.read (s.i.toNat + r) = .ok row) ∧
    (0 < h → 4096 < s.i.toNat + h →
      s.mem.readSprite s.i.toNat h = .error (.outOfBounds (max s.i.toNat 4096)) ∧
      exec (.drw x y h) s = .fault (.outOfBounds (max s.i.toNat 4096) s))

/-! ### The step -/

/-- R110 with R113: a step whose fetch and decode succeed is execute in the state with `PC` advanced by 2, this step's
inputs and `screen` Unchanged. Where the agenda is empty the inputs are free values (log 2); the agenda is the model's own
(log 1). -/
def Obligations.StepRunsTheDecodedInstruction : Prop :=
  ∀ (s : State) (w : Word) (i : Instr), fetch s = .ok w → decode w = .ok i →
    (∀ rb ks rest, s.agenda = .step rb ks :: rest →
      step s = exec i { s with pc := s.pc + 2, screen := .unchanged, randomByte := rb, keys := ks, agenda := rest }) ∧
    (s.agenda = [] →
      step s = exec i { s with pc := s.pc + 2, screen := .unchanged, randomByte := Config.freeRandomByte s.turn,
                               keys := Config.freeKeys s.turn, turn := s.turn + 1 }) ∧
    (s.pc + 2).toNat = s.pc.toNat + 2 ∧ s.pc.toNat ≤ 4094

/-- R111: where a fetch fails nothing changes, at an odd address as at an even one, and the same step fails again. -/
def Obligations.FailedFetchChangesNothing : Prop :=
  ∀ (rb : Byte) (ks : BitVec 16) (s : State),
    (s.pc.toNat = 4095 → stepOp rb ks s = .fault (.outOfBounds 4096 s)) ∧
    (4096 ≤ s.pc.toNat → stepOp rb ks s = .fault (.outOfBounds s.pc.toNat s)) ∧
    (s.pc.toNat < 4095 → ∃ hi lo, s.mem.read s.pc.toNat = .ok hi ∧ s.mem.read (s.pc.toNat + 1) = .ok lo ∧
      fetch s = .ok ((hi.setWidth 16 <<< 8) ||| lo.setWidth 16))

/-- R112: an illegal word ends the step with nothing changed, so the same step fails again with the same error. -/
def Obligations.FailedDecodeChangesNothing : Prop :=
  ∀ (rb rb' : Byte) (ks ks' : BitVec 16) (s : State) (w : Word), fetch s = .ok w → illegalWord w = true →
    ∃ f, stepOp rb ks s = .fault f ∧ f = .unrecognizedInstruction w s ∧ f.left.pc = s.pc ∧
      stepOp rb' ks' f.left = .fault f

/-- R26: every way `PC` changes, operation by operation. -/
def Obligations.ProgramCounterChanges : Prop :=
  (∀ (rb : Byte) (ks : BitVec 16) (s : State),
    (∀ e, (fetch s = .error e ∨ ∃ w, fetch s = .ok w ∧ decode w = .error e) →
      ∃ f, stepOp rb ks s = .fault f ∧ f.error = e ∧ f.left.pc = s.pc) ∧
    (∀ w i, fetch s = .ok w → decode w = .ok i →
      (∀ f, stepOp rb ks s = .fault f → f.left.pc = s.pc + 2) ∧
      (∀ t, stepOp rb ks s = .next t →
        (∀ nnn, (i = .jp nnn ∨ i = .call nnn) → t.pc.toNat = nnn.toNat) ∧
        (i = .ret → s.stack.head? = some t.pc) ∧
        (skips (beginExecute rb ks s) i = true → t.pc = s.pc + 4) ∧
        ((∀ nnn, i ≠ .jp nnn ∧ i ≠ .call nnn) → i ≠ .ret → skips (beginExecute rb ks s) i = false →
          t.pc = s.pc + 2)))) ∧
  (∀ (op : HostOp) (s t : State), stateAfter (perform op s) = some t →
    ((op = .initPc ∨ op = .reset) → t.pc.toNat = s.params.programBase.toNat) ∧
    ((op = .tick ∨ (∃ table, op = .loadFont table) ∨ ∃ bytes, op = .loadProgram bytes) → t.pc = s.pc))

/-- The `screen_changed` output (R116, the spec's decision D17; where it is kept is log 12). -/
def Obligations.ScreenChangedExactlyForDisplayInstructions : Prop :=
  ∀ (rb : Byte) (ks : BitVec 16) (s t : State) (w : Word) (i : Instr), fetch s = .ok w → decode w = .ok i →
    stepOp rb ks s = .next t →
      (t.screen = .changed ↔ i = .cls ∨ ∃ x y h, i = .drw x y h)

/-! ### Control transfer -/

/-- R131: RET pops the top of the stack into `PC`; on an empty stack it raises EmptyStack and changes nothing more. -/
def Obligations.RetPopsIntoPc : Prop :=
  ∀ s : State,
    (∀ a rest, s.stack = a :: rest →
      ∃ t, exec .ret s = .next t ∧ t.pc = a ∧ t.stack = rest ∧ s.sameBut [.pc, .stack] [] t) ∧
    (s.stack = [] → exec .ret s = .fault (.emptyStack s))

/-- R132: JP sets `PC` to `nnn`, whatever its value, and nothing else; a jump to its own address leaves the state as it was
before the step (the model keeps the step's inputs and `screen` beside it); after a jump to 0xFFF the next fetch fails. -/
def Obligations.JumpSetsPc : Prop :=
  ∀ (s : State) (nnn : Addr),
    (∃ t, exec (.jp nnn) s = .next t ∧ t.pc.toNat = nnn.toNat ∧ s.sameBut [.pc] [] t) ∧
    (∀ rb ks, nnn.toNat = s.pc.toNat →
      exec (.jp nnn) (beginExecute rb ks s) = .next ((s.withInputs rb ks).setScreen .unchanged)) ∧
    (∀ t, exec (.jp 0xFFF) s = .next t → fetch t = .error (.outOfBounds 4096))

/-- CALL (R133): pushes the already advanced `PC`. The StackOverflow clause is the spec's decision D6 (log 7). -/
def Obligations.CallPushesAdvancedPc : Prop :=
  ∀ (s : State) (nnn : Addr),
    (s.params.stackDepth ≠ some s.stack.length →
      ∃ t, exec (.call nnn) s = .next t ∧ t.pc.toNat = nnn.toNat ∧ t.stack = s.pc :: s.stack ∧
        s.sameBut [.pc, .stack] [] t) ∧
    (s.params.stackDepth = some s.stack.length → exec (.call nnn) s = .fault (.stackOverflow s))

/-- "the value popped is the one the matching `2nnn` pushed, the address after that call" (R131), whatever else happened
between the two. -/
def Obligations.ReturnComesBackAfterCall : Prop :=
  ∀ (s t u : State) (nnn : Addr), exec (.call nnn) s = .next t → u.stack = t.stack →
    ∃ r, exec .ret u = .next r ∧ r.pc = s.pc ∧ r.stack = s.stack

/-- R134, R135, R136, R137: the four conditional skips on registers; with `x = y` the one always skips and the other
never. -/
def Obligations.ConditionalSkips : Prop :=
  ∀ (s : State) (x y : Reg) (kk : Byte),
    (∃ t, exec (.seVxKk x kk) s = .next t ∧ t.pc = (if s.reg x = kk then s.pc + 2 else s.pc) ∧
      s.sameBut [.pc] [] t) ∧
    (∃ t, exec (.sneVxKk x kk) s = .next t ∧ t.pc = (if s.reg x = kk then s.pc else s.pc + 2) ∧
      s.sameBut [.pc] [] t) ∧
    (∃ t, exec (.seVxVy x y) s = .next t ∧ t.pc = (if s.reg x = s.reg y then s.pc + 2 else s.pc) ∧
      s.sameBut [.pc] [] t) ∧
    (∃ t, exec (.sneVxVy x y) s = .next t ∧ t.pc = (if s.reg x = s.reg y then s.pc else s.pc + 2) ∧
      s.sameBut [.pc] [] t)

/-- SKNP (R138): skips unless the key numbered by the whole register is down. The layout of `keys`, and that a value over
15 names no key and so skips, are the spec's decision D18 (log 24). -/
def Obligations.SkipIfKeyNotPressed : Prop :=
  ∀ (s : State) (x : Reg),
    ∃ t, exec (.sknp x) s = .next t ∧ s.sameBut [.pc] [] t ∧
      (15 < (s.reg x).toNat → t.pc = s.pc + 2) ∧
      ((s.reg x).toNat ≤ 15 → t.pc = if s.keys.getLsbD (s.reg x).toNat then s.pc else s.pc + 2)

/-! ### Load, arithmetic, logic, shift, random -/

/-- R151: LD Vx, kk. -/
def Obligations.LoadImmediate : Prop :=
  ∀ (s : State) (x : Reg) (kk : Byte),
    ∃ t, exec (.ldVxKk x kk) s = .next t ∧ t.reg x = kk ∧ s.sameBut [] [x] t

/-- R152: ADD Vx, kk wraps modulo 256 and writes no flag. -/
def Obligations.AddImmediateWrapsWithoutFlag : Prop :=
  ∀ (s : State) (x : Reg) (kk : Byte),
    ∃ t, exec (.addVxKk x kk) s = .next t ∧ (t.reg x).toNat = ((s.reg x).toNat + kk.toNat) % 256 ∧
      s.sameBut [] [x] t

/-- LD Vx, Vy, OR, AND, XOR (R154 to R157) bit by bit; VF is not written but as a destination (the spec's decision D10).
That `x` is the destination is general knowledge G2 (D21; log 14). -/
def Obligations.CopyAndLogic : Prop :=
  ∀ (s : State) (x y : Reg),
    (∃ t, exec (.ldVxVy x y) s = .next t ∧ t.reg x = s.reg y ∧ s.sameBut [] [x] t) ∧
    (∃ t, exec (.or x y) s = .next t ∧ s.sameBut [] [x] t ∧
      ∀ n, n < 8 → (t.reg x).getLsbD n = ((s.reg x).getLsbD n || (s.reg y).getLsbD n)) ∧
    (∃ t, exec (.and x y) s = .next t ∧ s.sameBut [] [x] t ∧
      ∀ n, n < 8 → (t.reg x).getLsbD n = ((s.reg x).getLsbD n && (s.reg y).getLsbD n)) ∧
    (∃ t, exec (.xor x y) s = .next t ∧ s.sameBut [] [x] t ∧
      ∀ n, n < 8 → (t.reg x).getLsbD n = ((s.reg x).getLsbD n ^^ (s.reg y).getLsbD n))

/-- ADD Vx, Vy (R158): the sum modulo 256 and the carry out. With `x = 0xF` the parameter VF_ORDER_ARITH says which of the
two VF keeps (R163, the spec's decision D8; log 8); the roles of `x` and `y` are general knowledge G2 (D21; log 14). -/
def Obligations.AddRegisterSetsCarry : Prop :=
  ∀ (s : State) (x y : Reg),
    ∃ t, exec (.addVxVy x y) s = .next t ∧ s.sameBut [] [x, Reg.vf] t ∧
      (x ≠ Reg.vf →
        (t.reg x).toNat = ((s.reg x).toNat + (s.reg y).toNat) % 256 ∧
        t.reg Reg.vf = if 255 < (s.reg x).toNat + (s.reg y).toNat then 1 else 0) ∧
      (x = Reg.vf → s.params.vfOrder = .flagThenResult →
        (t.reg Reg.vf).toNat = ((s.reg x).toNat + (s.reg y).toNat) % 256) ∧
      (x = Reg.vf → s.params.vfOrder = .resultThenFlag →
        t.reg Reg.vf = if 255 < (s.reg x).toNat + (s.reg y).toNat then 1 else 0)

/-- SUB and SUBN (R159, R161): the difference modulo 256 and 1 for no borrow, so 1 for equal operands. The order of the
writes and the roles as in AddRegisterSetsCarry (D8, D21; log 8, log 14). -/
def Obligations.SubtractSetsNoBorrow : Prop :=
  ∀ (s : State) (x y : Reg),
    (∃ t, exec (.sub x y) s = .next t ∧ s.sameBut [] [x, Reg.vf] t ∧
      (x ≠ Reg.vf →
        (t.reg x).toNat = ((s.reg x).toNat + 256 - (s.reg y).toNat) % 256 ∧
        t.reg Reg.vf = if (s.reg y).toNat ≤ (s.reg x).toNat then 1 else 0) ∧
      (x = Reg.vf → s.params.vfOrder = .flagThenResult →
        (t.reg Reg.vf).toNat = ((s.reg x).toNat + 256 - (s.reg y).toNat) % 256) ∧
      (x = Reg.vf → s.params.vfOrder = .resultThenFlag →
        t.reg Reg.vf = if (s.reg y).toNat ≤ (s.reg x).toNat then 1 else 0)) ∧
    (∃ t, exec (.subn x y) s = .next t ∧ s.sameBut [] [x, Reg.vf] t ∧
      (x ≠ Reg.vf →
        (t.reg x).toNat = ((s.reg y).toNat + 256 - (s.reg x).toNat) % 256 ∧
        t.reg Reg.vf = if (s.reg x).toNat ≤ (s.reg y).toNat then 1 else 0) ∧
      (x = Reg.vf → s.params.vfOrder = .flagThenResult →
        (t.reg Reg.vf).toNat = ((s.reg y).toNat + 256 - (s.reg x).toNat) % 256) ∧
      (x = Reg.vf → s.params.vfOrder = .resultThenFlag →
        t.reg Reg.vf = if (s.reg x).toNat ≤ (s.reg y).toNat then 1 else 0))

/-- SHR and SHL (R160, R162): by one, logical, the flag first, so that with `x = 0xF` the shifted value remains. That
`V[x]` is shifted in place and `V[y]` takes no part is the spec's decision D9 (log 16). -/
def Obligations.ShiftsSetTheBitShiftedOut : Prop :=
  ∀ (s : State) (x y : Reg),
    (∃ t, exec (.shr x y) s = .next t ∧ s.sameBut [] [x, Reg.vf] t ∧
      (t.reg x).toNat = (s.reg x).toNat / 2 ∧
      (x ≠ Reg.vf → (t.reg Reg.vf).toNat = (s.reg x).toNat % 2)) ∧
    (∃ t, exec (.shl x y) s = .next t ∧ s.sameBut [] [x, Reg.vf] t ∧
      (t.reg x).toNat = (s.reg x).toNat * 2 % 256 ∧
      (x ≠ Reg.vf → (t.reg Reg.vf).toNat = (s.reg x).toNat / 128))

/-- R164: RND is a function of the step's `random_byte` input and `kk`. -/
def Obligations.RandomIsMaskedInput : Prop :=
  ∀ (s : State) (x : Reg) (kk rb : Byte) (ks : BitVec 16),
    ∃ t, exec (.rnd x kk) (s.withInputs rb ks) = .next t ∧ (s.withInputs rb ks).sameBut [] [x] t ∧
      (∀ n, n < 8 → (t.reg x).getLsbD n = (rb.getLsbD n && kk.getLsbD n)) ∧
      (kk = 0x00 → t.reg x = 0x00) ∧ (kk = 0xFF → t.reg x = rb)

/-- R163: "For `x` from 0 to 0xE the two orders give the same state"; and no other instruction depends on the order. The
parameter is the spec's decision D8 (log 8). -/
def Obligations.VfOrderMattersOnlyForVfDestination : Prop :=
  ∀ (i : Instr) (s : State) (o : VfOrder),
    (∀ y, i ≠ .addVxVy Reg.vf y ∧ i ≠ .sub Reg.vf y ∧ i ≠ .subn Reg.vf y) →
      exec i (s.withVfOrder o) = mapOutcome (fun t => t.withVfOrder o) (exec i s)

/-! ### Index register and memory -/

/-- R181: LD I, nnn. -/
def Obligations.SetIndexRegister : Prop :=
  ∀ (s : State) (nnn : Addr),
    ∃ t, exec (.ldI nnn) s = .next t ∧ t.i.toNat = nnn.toNat ∧ s.sameBut [.i] [] t

/-- ADD I, Vx (R182) wraps modulo 65536 and writes no flag, and LD F, Vx (R183) does not mask the digit. What `Fx1E` does is
general knowledge G3 (D21; log 14), its wrap D11 (log 18), no flag D10 (log 17), no mask D12 (log 19). -/
def Obligations.IndexArithmetic : Prop :=
  ∀ (s : State) (x : Reg),
    (∃ t, exec (.addIVx x) s = .next t ∧ t.i.toNat = (s.i.toNat + (s.reg x).toNat) % 65536 ∧ s.sameBut [.i] [] t) ∧
    (∃ t, exec (.ldFVx x) s = .next t ∧
      t.i.toNat = s.params.fontBase.toNat + 5 * (s.reg x).toNat ∧ s.sameBut [.i] [] t)

/-- LD B, Vx (R184): three digits of at most 9 whose value is the register, at `I`, `I + 1`, `I + 2`; what a failing one
leaves is the spec's decision D14 (log 21). -/
def Obligations.BcdStoresDigits : Prop :=
  ∀ (s : State) (x : Reg), s.mem.wf →
    ∃ h t o : Nat, h ≤ 2 ∧ t ≤ 9 ∧ o ≤ 9 ∧ 100 * h + 10 * t + o = (s.reg x).toNat ∧
      (s.i.toNat + 2 < 4096 → ∃ u, exec (.ldBVx x) s = .next u ∧ s.sameBut [.mem] [] u ∧
        s.stored s.i.toNat [BitVec.ofNat 8 h, BitVec.ofNat 8 t, BitVec.ofNat 8 o] u) ∧
      (4096 ≤ s.i.toNat + 2 → ∃ u, exec (.ldBVx x) s = .fault (.outOfBounds (max s.i.toNat 4096) u) ∧
        s.sameBut [.mem] [] u ∧
        s.stored s.i.toNat [BitVec.ofNat 8 h, BitVec.ofNat 8 t, BitVec.ofNat 8 o] u)

/-- R185: LD [I], Vx stores `V0` to `V[x]` from `I` up and nothing else; at the end of memory the bytes before the failing
address stay written. -/
def Obligations.DumpStoresRegisterBlock : Prop :=
  ∀ (s : State) (x : Reg), s.mem.wf →
    ∃ u, (s.i.toNat + x.val < 4096 → exec (.ldMIVx x) s = .next u) ∧
      (4096 ≤ s.i.toNat + x.val → exec (.ldMIVx x) s = .fault (.outOfBounds (max s.i.toNat 4096) u)) ∧
      s.sameBut [.mem] [] u ∧
      (∀ k : Reg, k ≤ x → s.i.toNat + k.val < 4096 → u.mem.read (s.i.toNat + k.val) = .ok (s.reg k)) ∧
      (∀ c, (c < s.i.toNat ∨ s.i.toNat + x.val < c) → u.mem.read c = s.mem.read c)

/-- LD Vx, [I] (R187): loads `V0` to `V[x]` from `I` up and nothing else. What a failing one leaves is the spec's decision
D14 (log 21). -/
def Obligations.LoadReadsRegisterBlock : Prop :=
  ∀ (s : State) (x : Reg),
    ∃ u, (s.i.toNat + x.val < 4096 → exec (.ldVxMI x) s = .next u) ∧
      (4096 ≤ s.i.toNat + x.val → exec (.ldVxMI x) s = .fault (.outOfBounds (max s.i.toNat 4096) u)) ∧
      (∀ k : Reg, k ≤ x → s.i.toNat + k.val < 4096 → s.mem.read (s.i.toNat + k.val) = .ok (u.reg k)) ∧
      (∀ k : Reg, (x < k ∨ 4096 ≤ s.i.toNat + k.val) → u.reg k = s.reg k) ∧
      s.sameBut [] (List.finRange 16) u

/-- `Fx55` followed by `Fx65` with the same `x` and `I` leaves `V0..Vx` as they were (R185, R187, R186), whatever the
registers held in between. -/
def Obligations.LoadAfterDumpRestores : Prop :=
  ∀ (s t u r : State) (x : Reg), s.mem.wf → exec (.ldMIVx x) s = .next t → u.mem = t.mem → u.i = s.i →
    exec (.ldVxMI x) u = .next r → ∀ k : Reg, k ≤ x → r.reg k = s.reg k

/-- R66: a dump over the next instruction is seen by the next fetch, `V[0]` as its high byte (R57). -/
def Obligations.StoreIntoCodeIsFetched : Prop :=
  ∀ (s t : State) (x : Reg), s.mem.wf → 1 ≤ x.val → s.i = s.pc → exec (.ldMIVx x) s = .next t →
    fetch t = .ok ((((s.reg 0).setWidth 16 : Word) <<< 8) ||| (s.reg 1).setWidth 16)

/-! ### Display -/

/-- CLS (R201): every pixel off, no flag. That it reports Changed is the spec's decision D17 (log 12). -/
def Obligations.ClearScreen : Prop :=
  ∀ s : State, ∃ t, exec .cls s = .next t ∧ (∀ x y, t.disp.pixel x y = false) ∧ t.screen = .changed ∧
    s.sameBut [.disp, .screen] [] t

/-- R203: the blitter flips exactly the visited pixels and reports whether one of them was on. -/
def Obligations.BlitFlipsVisitedPixels : Prop :=
  ∀ (d : Display) (x0 y0 : Nat) (rows : List Byte),
    (∀ x y, Visited x0 y0 rows x y → (blit x0 y0 rows d).1.pixel x y = !d.pixel x y) ∧
    (∀ x y, ¬ Visited x0 y0 rows x y → (blit x0 y0 rows d).1.pixel x y = d.pixel x y) ∧
    ((blit x0 y0 rows d).2 = true ↔ ∃ x y, Visited x0 y0 rows x y ∧ d.pixel x y = true)

/-- The blitter is its own inverse, and the second report is Yes exactly when some visited pixel was off before the first
call (R206, which marks it derived). -/
def Obligations.BlitTwiceIsIdentity : Prop :=
  ∀ (d : Display) (x0 y0 : Nat) (rows : List Byte),
    (blit x0 y0 rows (blit x0 y0 rows d).1).1 = d ∧
    ((blit x0 y0 rows (blit x0 y0 rows d).1).2 = true ↔ ∃ x y, Visited x0 y0 rows x y ∧ d.pixel x y = false)

/-- DRW (R202): the rows are the bytes from `I` up, drawn at (`V[x]`, `V[y]`) as they were before. The flag values 1 and 0
are the spec's decision D16 (log 23), Changed is D17 (log 12), the origin as it stands D15 (log 22). -/
def Obligations.DrawBlitsSpriteAndSetsCollision : Prop :=
  ∀ (s : State) (x y : Reg) (h : Nat), (h = 0 ∨ s.i.toNat + h ≤ 4096) →
    ∃ rows t, exec (.drw x y h) s = .next t ∧ rows.length = h ∧
      (∀ r row, rows[r]? = some row → s.mem.read (s.i.toNat + r) = .ok row) ∧
      (∀ px py, Visited (s.reg x).toNat (s.reg y).toNat rows px py → t.disp.pixel px py = !s.disp.pixel px py) ∧
      (∀ px py, ¬ Visited (s.reg x).toNat (s.reg y).toNat rows px py → t.disp.pixel px py = s.disp.pixel px py) ∧
      ((∃ px py, Visited (s.reg x).toNat (s.reg y).toNat rows px py ∧ s.disp.pixel px py = true) →
        t.reg Reg.vf = 1) ∧
      ((∀ px py, Visited (s.reg x).toNat (s.reg y).toNat rows px py → s.disp.pixel px py = false) →
        t.reg Reg.vf = 0) ∧
      t.screen = .changed ∧ s.sameBut [.disp, .screen] [Reg.vf] t

/-- A sprite of height 0 (R204, the spec's decision D16; log 23) reads no memory and draws nothing; one whose origin is off
the screen (R205, the spec's decision D15; log 22) draws nothing; both clear VF. -/
def Obligations.EmptyOrOffScreenDrawChangesNoPixel : Prop :=
  ∀ (s : State) (x y : Reg) (h : Nat),
    (h = 0 ∨ (s.i.toNat + h ≤ 4096 ∧ (64 ≤ (s.reg x).toNat ∨ 32 ≤ (s.reg y).toNat))) →
      ∃ t, exec (.drw x y h) s = .next t ∧ t.disp = s.disp ∧ t.reg Reg.vf = 0 ∧ t.screen = .changed ∧
        s.sameBut [.screen] [Reg.vf] t

/-! ### Timers -/

/-- The three timer instructions (R221 to R223). Which encoding does which is general knowledge G3 (D21; log 14). -/
def Obligations.TimerInstructions : Prop :=
  ∀ (s : State) (x : Reg),
    (∃ t, exec (.ldVxDt x) s = .next t ∧ t.reg x = s.dt ∧ s.sameBut [] [x] t) ∧
    (∃ t, exec (.ldDtVx x) s = .next t ∧ t.dt = s.reg x ∧ s.sameBut [.dt] [] t) ∧
    (∃ t, exec (.ldStVx x) s = .next t ∧ t.st = s.reg x ∧ s.sameBut [.st] [] t)

/-- TICK, any number of times (R246, the spec's decision D19; log 25): both timers go down by one each and stop at 0, and
nothing else changes. -/
def Obligations.TicksCountDownToZero : Prop :=
  ∀ (n : Nat) (s : State),
    ((hostTick^[n]) s).dt.toNat = s.dt.toNat - n ∧ ((hostTick^[n]) s).st.toNat = s.st.toNat - n ∧
    s.sameBut [.dt, .st] [] ((hostTick^[n]) s) ∧ perform .tick s = .next (hostTick s)

/-! ### The host's other operations -/

/-- RESET from any state (R300, the values of 10_state.md R37: the spec's decision D5, log 9, but for memory, which the
document zero-initializes). The model's own parameters and agenda stay (log 4, log 1). -/
def Obligations.ResetGivesResetValues : Prop :=
  ∀ s : State, ∃ t, perform .reset s = .next t ∧
    (∀ r, t.reg r = 0) ∧ t.pc.toNat = s.params.programBase.toNat ∧ t.i = 0 ∧ t.stack = [] ∧ t.dt = 0 ∧ t.st = 0 ∧
    (∀ a, a < 4096 → t.mem.read a = .ok 0) ∧ (∀ x y, t.disp.pixel x y = false) ∧
    t.params = s.params ∧ t.agenda = s.agenda

/-- LOAD_FONT (R241): the 80 bytes of the table from FONT_BASE up and nothing else. FONT_BASE is a parameter, the spec's
decision D4 (log 6). -/
def Obligations.LoadFontReproducesTable : Prop :=
  ∀ (s : State) (table : Vector Byte 80), s.mem.wf → s.params.wf →
    ∃ t, perform (.loadFont table) s = .next t ∧ s.sameBut [.mem] [] t ∧
      (∀ k (h : k < 80), t.mem.read (s.params.fontBase.toNat + k) = .ok table[k]) ∧
      (∀ c, (c < s.params.fontBase.toNat ∨ s.params.fontBase.toNat + 80 ≤ c) → t.mem.read c = s.mem.read c)

/-- LOAD_PROGRAM (R242): byte `k` goes to PROGRAM_BASE + `k`; one that does not fit stores what fits and fails with
OutOfBounds(4096). PROGRAM_BASE is a parameter, the spec's decision D3 (log 5). -/
def Obligations.LoadProgramStoresImage : Prop :=
  ∀ (s : State) (bytes : List Byte), s.mem.wf →
    ∃ t, s.sameBut [.mem] [] t ∧ s.stored s.params.programBase.toNat bytes t ∧
      (s.params.programBase.toNat + bytes.length ≤ 4096 → perform (.loadProgram bytes) s = .next t) ∧
      (4096 < s.params.programBase.toNat + bytes.length →
        perform (.loadProgram bytes) s = .fault (.outOfBounds 4096 t))

/-- R243: INIT_PC sets `PC` to the program's load address and changes nothing else; after RESET it changes nothing. -/
def Obligations.InitPcSetsLoadAddress : Prop :=
  ∀ s : State,
    (∃ t, perform .initPc s = .next t ∧ t.pc.toNat = s.params.programBase.toNat ∧ s.sameBut [.pc] [] t) ∧
    (∃ t, perform .reset s = .next t ∧ perform .initPc t = .next t)

/-- What the host does before the first step (70_reset_and_hazards.md R302), as four operations of the agenda (log 1,
log 28), leaves the program at PROGRAM_BASE with `PC` there, and the font wherever the program has not overwritten it. -/
def Obligations.BootLoadsProgramAndFont : Prop :=
  ∀ (s : State) (program : List Byte), s.params.wf → s.params.programBase.toNat + program.length ≤ 4096 →
    ∃ t, Host.Core.run Sys2Proof.core 4 (s.setAgenda (bootOps s.params program)) = .next t ∧
      t.pc.toNat = s.params.programBase.toNat ∧ t.agenda = [] ∧
      (∀ k b, program[k]? = some b → t.mem.read (s.params.programBase.toNat + k) = .ok b) ∧
      (∀ k (h : k < 80),
        (s.params.fontBase.toNat + k < s.params.programBase.toNat ∨
          s.params.programBase.toNat + program.length ≤ s.params.fontBase.toNat + k) →
        t.mem.read (s.params.fontBase.toNat + k) = .ok s.params.glyphTable[k])

/-! ### The whole machine -/

/-- Memory stays canonical, `PC` stays at most 4098 and every stack entry at most 4096 (10_state.md R27, marked derived
there), the stack keeps a finite depth, through every operation of the host. -/
def Obligations.StepKeepsInvariant : Prop :=
  ∀ s s' : State, s.Inv → step s = .next s' → s'.Inv

/-- The state an error leaves meets the invariant too: it is "an ordinary state" from which the host may go on (R268). -/
def Obligations.FaultLeavesInvariant : Prop :=
  ∀ (s : State) (f : Fault), s.Inv → step s = .fault f → f.left.Inv

/-- The invariant holds after RESET with the default parameters (log 5 to log 9). -/
def Obligations.ResetMeetsInvariant : Prop := State.reset.Inv

/-- An instruction completes exactly where the rules name no error for it (R261, R263, R266 and the decision D6 for the
last), and otherwise raises exactly that error. -/
def Obligations.InstructionCompletesUnlessErrorForeseen : Prop :=
  ∀ (i : Instr) (s : State),
    (foreseenError s i = none → ∃ t, exec i s = .next t) ∧
    (∀ e, foreseenError s i = some e → ∃ f, exec i s = .fault f ∧ f.error = e)

/-- "there is no variant that decodes and then has no meaning" (R114): no operation of any agenda is refused. -/
def Obligations.NothingIsRefused : Prop :=
  ∀ (s : State) (r : Refusal), step s ≠ .refused r

/-- InvalidRegisterRange and InvalidBitIndex are raised by their utilities as R188 and R94 say, and reach no operation of
the block (R264, R265). -/
def Obligations.UtilityErrorsNeverLeaveTheBlock : Prop :=
  (∀ a b : Reg, b < a → regRange a b = .error .invalidRegisterRange) ∧
  (∀ (b : Byte) (n : Nat), 8 ≤ n → bit b n = .error .invalidBitIndex) ∧
  (∀ (s : State) (f : Fault), step s = .fault f →
    f.error ≠ .invalidRegisterRange ∧ f.error ≠ .invalidBitIndex)

/-- R20's column "written by", for one instruction and whether it completes or fails: only CLS and DRW change the display,
only `Fx33` and `Fx55` memory, only `Fx15` DT, only `Fx18` ST, only `Annn`, `Fx1E` and `Fx29` `I`, only CALL and RET the
stack; and no instruction changes the parameters, the inputs or the agenda (log 1, log 4). -/
def Obligations.OnlyNamedInstructionsChangeEachPart : Prop :=
  ∀ (i : Instr) (s t : State), stateAfter (exec i s) = some t →
    (t.disp ≠ s.disp → i = .cls ∨ ∃ x y h, i = .drw x y h) ∧
    ((∃ a, t.mem.read a ≠ s.mem.read a) → ∃ x, i = .ldBVx x ∨ i = .ldMIVx x) ∧
    (t.dt ≠ s.dt → ∃ x, i = .ldDtVx x) ∧
    (t.st ≠ s.st → ∃ x, i = .ldStVx x) ∧
    (t.i ≠ s.i → (∃ nnn, i = .ldI nnn) ∨ ∃ x, i = .addIVx x ∨ i = .ldFVx x) ∧
    (t.stack ≠ s.stack → i = .ret ∨ ∃ nnn, i = .call nnn) ∧
    t.params = s.params ∧ t.randomByte = s.randomByte ∧ t.keys = s.keys ∧ t.agenda = s.agenda ∧ t.turn = s.turn

/-- No register changes but the destination and, for the instructions of 10_state.md R23 (whose list of flag writers is the
spec's decision D10; log 17), VF; whether the instruction completes or fails. That `x` is the destination in the `8xy_` family
(42_load_alu.md R153), and what `Fx07` and `Fx65` do, is general knowledge (D21; PRESUMED, log 14); the range `V0` to `V[x]` of
`Fx65` is 43_index_memory.md R187. -/
def Obligations.OnlyDestinationRegistersChange : Prop :=
  ∀ (i : Instr) (s t : State) (r : Reg), stateAfter (exec i s) = some t → mayWriteReg r i = false → t.reg r = s.reg r

/-- "Only `Cxkk` reads `random_byte` and only `ExA1` reads `keys`; for every other instruction the two inputs have no effect
on the result" (R114): execute commutes with a change of the inputs. -/
def Obligations.InputsReadOnlyByRandomAndKeySkip : Prop :=
  ∀ (i : Instr) (s : State) (rb : Byte) (ks : BitVec 16),
    ((∀ x kk, i ≠ .rnd x kk) → exec i (s.withInputs rb s.keys) =
      mapOutcome (fun t => t.withInputs rb s.keys) (exec i s)) ∧
    ((∀ x, i ≠ .sknp x) → exec i (s.withInputs s.randomByte ks) =
      mapOutcome (fun t => t.withInputs s.randomByte ks) (exec i s))
end

