-- ==== Sys2Proof/Laws/State.lean ====
section
/-! SUPPORT. One lemma per field per update of State, so that no proof unfolds a record update. -/

namespace Sys2Proof.Machine

variable (s : State)

/-! ### setReg -/

@[simp] theorem State.setReg_pc (x : Reg) (b : Byte) : (s.setReg x b).pc = s.pc := rfl
@[simp] theorem State.setReg_i (x : Reg) (b : Byte) : (s.setReg x b).i = s.i := rfl
@[simp] theorem State.setReg_stack (x : Reg) (b : Byte) : (s.setReg x b).stack = s.stack := rfl
@[simp] theorem State.setReg_dt (x : Reg) (b : Byte) : (s.setReg x b).dt = s.dt := rfl
@[simp] theorem State.setReg_st (x : Reg) (b : Byte) : (s.setReg x b).st = s.st := rfl
@[simp] theorem State.setReg_mem (x : Reg) (b : Byte) : (s.setReg x b).mem = s.mem := rfl
@[simp] theorem State.setReg_disp (x : Reg) (b : Byte) : (s.setReg x b).disp = s.disp := rfl
@[simp] theorem State.setReg_params (x : Reg) (b : Byte) : (s.setReg x b).params = s.params := rfl
@[simp] theorem State.setReg_randomByte (x : Reg) (b : Byte) : (s.setReg x b).randomByte = s.randomByte := rfl
@[simp] theorem State.setReg_keys (x : Reg) (b : Byte) : (s.setReg x b).keys = s.keys := rfl
@[simp] theorem State.setReg_screen (x : Reg) (b : Byte) : (s.setReg x b).screen = s.screen := rfl
@[simp] theorem State.setReg_agenda (x : Reg) (b : Byte) : (s.setReg x b).agenda = s.agenda := rfl
@[simp] theorem State.setReg_turn (x : Reg) (b : Byte) : (s.setReg x b).turn = s.turn := rfl

@[simp] theorem State.reg_setReg_same (x : Reg) (b : Byte) : (s.setReg x b).reg x = b := by
  simp [State.reg, State.setReg]

theorem State.reg_setReg_of_ne (x r : Reg) (b : Byte) (h : r ≠ x) : (s.setReg x b).reg r = s.reg r := by
  have hv : x.val ≠ r.val := fun e => h (Fin.ext e.symm)
  simp [State.reg, State.setReg, hv]

theorem State.reg_setReg (x r : Reg) (b : Byte) : (s.setReg x b).reg r = if r = x then b else s.reg r := by
  by_cases h : r = x
  · subst h; simp
  · simp [h, State.reg_setReg_of_ne]

/-! ### setPc -/

@[simp] theorem State.setPc_pc (a : Word) : (s.setPc a).pc = a := rfl
@[simp] theorem State.setPc_i (a : Word) : (s.setPc a).i = s.i := rfl
@[simp] theorem State.setPc_stack (a : Word) : (s.setPc a).stack = s.stack := rfl
@[simp] theorem State.setPc_dt (a : Word) : (s.setPc a).dt = s.dt := rfl
@[simp] theorem State.setPc_st (a : Word) : (s.setPc a).st = s.st := rfl
@[simp] theorem State.setPc_mem (a : Word) : (s.setPc a).mem = s.mem := rfl
@[simp] theorem State.setPc_disp (a : Word) : (s.setPc a).disp = s.disp := rfl
@[simp] theorem State.setPc_params (a : Word) : (s.setPc a).params = s.params := rfl
@[simp] theorem State.setPc_randomByte (a : Word) : (s.setPc a).randomByte = s.randomByte := rfl
@[simp] theorem State.setPc_keys (a : Word) : (s.setPc a).keys = s.keys := rfl
@[simp] theorem State.setPc_screen (a : Word) : (s.setPc a).screen = s.screen := rfl
@[simp] theorem State.setPc_agenda (a : Word) : (s.setPc a).agenda = s.agenda := rfl
@[simp] theorem State.setPc_turn (a : Word) : (s.setPc a).turn = s.turn := rfl
@[simp] theorem State.setPc_reg (a : Word) (r : Reg) : (s.setPc a).reg r = s.reg r := rfl

/-! ### setI -/

@[simp] theorem State.setI_pc (a : Word) : (s.setI a).pc = s.pc := rfl
@[simp] theorem State.setI_i (a : Word) : (s.setI a).i = a := rfl
@[simp] theorem State.setI_stack (a : Word) : (s.setI a).stack = s.stack := rfl
@[simp] theorem State.setI_dt (a : Word) : (s.setI a).dt = s.dt := rfl
@[simp] theorem State.setI_st (a : Word) : (s.setI a).st = s.st := rfl
@[simp] theorem State.setI_mem (a : Word) : (s.setI a).mem = s.mem := rfl
@[simp] theorem State.setI_disp (a : Word) : (s.setI a).disp = s.disp := rfl
@[simp] theorem State.setI_params (a : Word) : (s.setI a).params = s.params := rfl
@[simp] theorem State.setI_randomByte (a : Word) : (s.setI a).randomByte = s.randomByte := rfl
@[simp] theorem State.setI_keys (a : Word) : (s.setI a).keys = s.keys := rfl
@[simp] theorem State.setI_screen (a : Word) : (s.setI a).screen = s.screen := rfl
@[simp] theorem State.setI_agenda (a : Word) : (s.setI a).agenda = s.agenda := rfl
@[simp] theorem State.setI_turn (a : Word) : (s.setI a).turn = s.turn := rfl
@[simp] theorem State.setI_reg (a : Word) (r : Reg) : (s.setI a).reg r = s.reg r := rfl

/-! ### setStack -/

@[simp] theorem State.setStack_pc (l : List Word) : (s.setStack l).pc = s.pc := rfl
@[simp] theorem State.setStack_i (l : List Word) : (s.setStack l).i = s.i := rfl
@[simp] theorem State.setStack_stack (l : List Word) : (s.setStack l).stack = l := rfl
@[simp] theorem State.setStack_dt (l : List Word) : (s.setStack l).dt = s.dt := rfl
@[simp] theorem State.setStack_st (l : List Word) : (s.setStack l).st = s.st := rfl
@[simp] theorem State.setStack_mem (l : List Word) : (s.setStack l).mem = s.mem := rfl
@[simp] theorem State.setStack_disp (l : List Word) : (s.setStack l).disp = s.disp := rfl
@[simp] theorem State.setStack_params (l : List Word) : (s.setStack l).params = s.params := rfl
@[simp] theorem State.setStack_randomByte (l : List Word) : (s.setStack l).randomByte = s.randomByte := rfl
@[simp] theorem State.setStack_keys (l : List Word) : (s.setStack l).keys = s.keys := rfl
@[simp] theorem State.setStack_screen (l : List Word) : (s.setStack l).screen = s.screen := rfl
@[simp] theorem State.setStack_agenda (l : List Word) : (s.setStack l).agenda = s.agenda := rfl
@[simp] theorem State.setStack_turn (l : List Word) : (s.setStack l).turn = s.turn := rfl
@[simp] theorem State.setStack_reg (l : List Word) (r : Reg) : (s.setStack l).reg r = s.reg r := rfl

/-! ### setDt -/

@[simp] theorem State.setDt_pc (b : Byte) : (s.setDt b).pc = s.pc := rfl
@[simp] theorem State.setDt_i (b : Byte) : (s.setDt b).i = s.i := rfl
@[simp] theorem State.setDt_stack (b : Byte) : (s.setDt b).stack = s.stack := rfl
@[simp] theorem State.setDt_dt (b : Byte) : (s.setDt b).dt = b := rfl
@[simp] theorem State.setDt_st (b : Byte) : (s.setDt b).st = s.st := rfl
@[simp] theorem State.setDt_mem (b : Byte) : (s.setDt b).mem = s.mem := rfl
@[simp] theorem State.setDt_disp (b : Byte) : (s.setDt b).disp = s.disp := rfl
@[simp] theorem State.setDt_params (b : Byte) : (s.setDt b).params = s.params := rfl
@[simp] theorem State.setDt_randomByte (b : Byte) : (s.setDt b).randomByte = s.randomByte := rfl
@[simp] theorem State.setDt_keys (b : Byte) : (s.setDt b).keys = s.keys := rfl
@[simp] theorem State.setDt_screen (b : Byte) : (s.setDt b).screen = s.screen := rfl
@[simp] theorem State.setDt_agenda (b : Byte) : (s.setDt b).agenda = s.agenda := rfl
@[simp] theorem State.setDt_turn (b : Byte) : (s.setDt b).turn = s.turn := rfl
@[simp] theorem State.setDt_reg (b : Byte) (r : Reg) : (s.setDt b).reg r = s.reg r := rfl

/-! ### setSt -/

@[simp] theorem State.setSt_pc (b : Byte) : (s.setSt b).pc = s.pc := rfl
@[simp] theorem State.setSt_i (b : Byte) : (s.setSt b).i = s.i := rfl
@[simp] theorem State.setSt_stack (b : Byte) : (s.setSt b).stack = s.stack := rfl
@[simp] theorem State.setSt_dt (b : Byte) : (s.setSt b).dt = s.dt := rfl
@[simp] theorem State.setSt_st (b : Byte) : (s.setSt b).st = b := rfl
@[simp] theorem State.setSt_mem (b : Byte) : (s.setSt b).mem = s.mem := rfl
@[simp] theorem State.setSt_disp (b : Byte) : (s.setSt b).disp = s.disp := rfl
@[simp] theorem State.setSt_params (b : Byte) : (s.setSt b).params = s.params := rfl
@[simp] theorem State.setSt_randomByte (b : Byte) : (s.setSt b).randomByte = s.randomByte := rfl
@[simp] theorem State.setSt_keys (b : Byte) : (s.setSt b).keys = s.keys := rfl
@[simp] theorem State.setSt_screen (b : Byte) : (s.setSt b).screen = s.screen := rfl
@[simp] theorem State.setSt_agenda (b : Byte) : (s.setSt b).agenda = s.agenda := rfl
@[simp] theorem State.setSt_turn (b : Byte) : (s.setSt b).turn = s.turn := rfl
@[simp] theorem State.setSt_reg (b : Byte) (r : Reg) : (s.setSt b).reg r = s.reg r := rfl

/-! ### setMem -/

@[simp] theorem State.setMem_pc (m : Memory) : (s.setMem m).pc = s.pc := rfl
@[simp] theorem State.setMem_i (m : Memory) : (s.setMem m).i = s.i := rfl
@[simp] theorem State.setMem_stack (m : Memory) : (s.setMem m).stack = s.stack := rfl
@[simp] theorem State.setMem_dt (m : Memory) : (s.setMem m).dt = s.dt := rfl
@[simp] theorem State.setMem_st (m : Memory) : (s.setMem m).st = s.st := rfl
@[simp] theorem State.setMem_mem (m : Memory) : (s.setMem m).mem = m := rfl
@[simp] theorem State.setMem_disp (m : Memory) : (s.setMem m).disp = s.disp := rfl
@[simp] theorem State.setMem_params (m : Memory) : (s.setMem m).params = s.params := rfl
@[simp] theorem State.setMem_randomByte (m : Memory) : (s.setMem m).randomByte = s.randomByte := rfl
@[simp] theorem State.setMem_keys (m : Memory) : (s.setMem m).keys = s.keys := rfl
@[simp] theorem State.setMem_screen (m : Memory) : (s.setMem m).screen = s.screen := rfl
@[simp] theorem State.setMem_agenda (m : Memory) : (s.setMem m).agenda = s.agenda := rfl
@[simp] theorem State.setMem_turn (m : Memory) : (s.setMem m).turn = s.turn := rfl
@[simp] theorem State.setMem_reg (m : Memory) (r : Reg) : (s.setMem m).reg r = s.reg r := rfl

/-! ### setDisp -/

@[simp] theorem State.setDisp_pc (d : Display) : (s.setDisp d).pc = s.pc := rfl
@[simp] theorem State.setDisp_i (d : Display) : (s.setDisp d).i = s.i := rfl
@[simp] theorem State.setDisp_stack (d : Display) : (s.setDisp d).stack = s.stack := rfl
@[simp] theorem State.setDisp_dt (d : Display) : (s.setDisp d).dt = s.dt := rfl
@[simp] theorem State.setDisp_st (d : Display) : (s.setDisp d).st = s.st := rfl
@[simp] theorem State.setDisp_mem (d : Display) : (s.setDisp d).mem = s.mem := rfl
@[simp] theorem State.setDisp_disp (d : Display) : (s.setDisp d).disp = d := rfl
@[simp] theorem State.setDisp_params (d : Display) : (s.setDisp d).params = s.params := rfl
@[simp] theorem State.setDisp_randomByte (d : Display) : (s.setDisp d).randomByte = s.randomByte := rfl
@[simp] theorem State.setDisp_keys (d : Display) : (s.setDisp d).keys = s.keys := rfl
@[simp] theorem State.setDisp_screen (d : Display) : (s.setDisp d).screen = s.screen := rfl
@[simp] theorem State.setDisp_agenda (d : Display) : (s.setDisp d).agenda = s.agenda := rfl
@[simp] theorem State.setDisp_turn (d : Display) : (s.setDisp d).turn = s.turn := rfl
@[simp] theorem State.setDisp_reg (d : Display) (r : Reg) : (s.setDisp d).reg r = s.reg r := rfl

/-! ### setScreen -/

@[simp] theorem State.setScreen_pc (c : ScreenChanged) : (s.setScreen c).pc = s.pc := rfl
@[simp] theorem State.setScreen_i (c : ScreenChanged) : (s.setScreen c).i = s.i := rfl
@[simp] theorem State.setScreen_stack (c : ScreenChanged) : (s.setScreen c).stack = s.stack := rfl
@[simp] theorem State.setScreen_dt (c : ScreenChanged) : (s.setScreen c).dt = s.dt := rfl
@[simp] theorem State.setScreen_st (c : ScreenChanged) : (s.setScreen c).st = s.st := rfl
@[simp] theorem State.setScreen_mem (c : ScreenChanged) : (s.setScreen c).mem = s.mem := rfl
@[simp] theorem State.setScreen_disp (c : ScreenChanged) : (s.setScreen c).disp = s.disp := rfl
@[simp] theorem State.setScreen_params (c : ScreenChanged) : (s.setScreen c).params = s.params := rfl
@[simp] theorem State.setScreen_randomByte (c : ScreenChanged) : (s.setScreen c).randomByte = s.randomByte := rfl
@[simp] theorem State.setScreen_keys (c : ScreenChanged) : (s.setScreen c).keys = s.keys := rfl
@[simp] theorem State.setScreen_screen (c : ScreenChanged) : (s.setScreen c).screen = c := rfl
@[simp] theorem State.setScreen_agenda (c : ScreenChanged) : (s.setScreen c).agenda = s.agenda := rfl
@[simp] theorem State.setScreen_turn (c : ScreenChanged) : (s.setScreen c).turn = s.turn := rfl
@[simp] theorem State.setScreen_reg (c : ScreenChanged) (r : Reg) : (s.setScreen c).reg r = s.reg r := rfl

/-! ### withInputs -/

@[simp] theorem State.withInputs_pc (rb : Byte) (ks : BitVec 16) : (s.withInputs rb ks).pc = s.pc := rfl
@[simp] theorem State.withInputs_i (rb : Byte) (ks : BitVec 16) : (s.withInputs rb ks).i = s.i := rfl
@[simp] theorem State.withInputs_stack (rb : Byte) (ks : BitVec 16) : (s.withInputs rb ks).stack = s.stack := rfl
@[simp] theorem State.withInputs_dt (rb : Byte) (ks : BitVec 16) : (s.withInputs rb ks).dt = s.dt := rfl
@[simp] theorem State.withInputs_st (rb : Byte) (ks : BitVec 16) : (s.withInputs rb ks).st = s.st := rfl
@[simp] theorem State.withInputs_mem (rb : Byte) (ks : BitVec 16) : (s.withInputs rb ks).mem = s.mem := rfl
@[simp] theorem State.withInputs_disp (rb : Byte) (ks : BitVec 16) : (s.withInputs rb ks).disp = s.disp := rfl
@[simp] theorem State.withInputs_params (rb : Byte) (ks : BitVec 16) : (s.withInputs rb ks).params = s.params := rfl
@[simp] theorem State.withInputs_randomByte (rb : Byte) (ks : BitVec 16) : (s.withInputs rb ks).randomByte = rb := rfl
@[simp] theorem State.withInputs_keys (rb : Byte) (ks : BitVec 16) : (s.withInputs rb ks).keys = ks := rfl
@[simp] theorem State.withInputs_screen (rb : Byte) (ks : BitVec 16) : (s.withInputs rb ks).screen = s.screen := rfl
@[simp] theorem State.withInputs_agenda (rb : Byte) (ks : BitVec 16) : (s.withInputs rb ks).agenda = s.agenda := rfl
@[simp] theorem State.withInputs_turn (rb : Byte) (ks : BitVec 16) : (s.withInputs rb ks).turn = s.turn := rfl
@[simp] theorem State.withInputs_reg (rb : Byte) (ks : BitVec 16) (r : Reg) : (s.withInputs rb ks).reg r = s.reg r := rfl

/-! ### setAgenda -/

@[simp] theorem State.setAgenda_pc (l : List HostOp) : (s.setAgenda l).pc = s.pc := rfl
@[simp] theorem State.setAgenda_i (l : List HostOp) : (s.setAgenda l).i = s.i := rfl
@[simp] theorem State.setAgenda_stack (l : List HostOp) : (s.setAgenda l).stack = s.stack := rfl
@[simp] theorem State.setAgenda_dt (l : List HostOp) : (s.setAgenda l).dt = s.dt := rfl
@[simp] theorem State.setAgenda_st (l : List HostOp) : (s.setAgenda l).st = s.st := rfl
@[simp] theorem State.setAgenda_mem (l : List HostOp) : (s.setAgenda l).mem = s.mem := rfl
@[simp] theorem State.setAgenda_disp (l : List HostOp) : (s.setAgenda l).disp = s.disp := rfl
@[simp] theorem State.setAgenda_params (l : List HostOp) : (s.setAgenda l).params = s.params := rfl
@[simp] theorem State.setAgenda_randomByte (l : List HostOp) : (s.setAgenda l).randomByte = s.randomByte := rfl
@[simp] theorem State.setAgenda_keys (l : List HostOp) : (s.setAgenda l).keys = s.keys := rfl
@[simp] theorem State.setAgenda_screen (l : List HostOp) : (s.setAgenda l).screen = s.screen := rfl
@[simp] theorem State.setAgenda_agenda (l : List HostOp) : (s.setAgenda l).agenda = l := rfl
@[simp] theorem State.setAgenda_turn (l : List HostOp) : (s.setAgenda l).turn = s.turn := rfl
@[simp] theorem State.setAgenda_reg (l : List HostOp) (r : Reg) : (s.setAgenda l).reg r = s.reg r := rfl

/-! ### setTurn -/

@[simp] theorem State.setTurn_pc (n : Nat) : (s.setTurn n).pc = s.pc := rfl
@[simp] theorem State.setTurn_i (n : Nat) : (s.setTurn n).i = s.i := rfl
@[simp] theorem State.setTurn_stack (n : Nat) : (s.setTurn n).stack = s.stack := rfl
@[simp] theorem State.setTurn_dt (n : Nat) : (s.setTurn n).dt = s.dt := rfl
@[simp] theorem State.setTurn_st (n : Nat) : (s.setTurn n).st = s.st := rfl
@[simp] theorem State.setTurn_mem (n : Nat) : (s.setTurn n).mem = s.mem := rfl
@[simp] theorem State.setTurn_disp (n : Nat) : (s.setTurn n).disp = s.disp := rfl
@[simp] theorem State.setTurn_params (n : Nat) : (s.setTurn n).params = s.params := rfl
@[simp] theorem State.setTurn_randomByte (n : Nat) : (s.setTurn n).randomByte = s.randomByte := rfl
@[simp] theorem State.setTurn_keys (n : Nat) : (s.setTurn n).keys = s.keys := rfl
@[simp] theorem State.setTurn_screen (n : Nat) : (s.setTurn n).screen = s.screen := rfl
@[simp] theorem State.setTurn_agenda (n : Nat) : (s.setTurn n).agenda = s.agenda := rfl
@[simp] theorem State.setTurn_turn (n : Nat) : (s.setTurn n).turn = n := rfl
@[simp] theorem State.setTurn_reg (n : Nat) (r : Reg) : (s.setTurn n).reg r = s.reg r := rfl

/-! ### Names for updates already named -/

@[simp] theorem State.push_eq_setStack (a : Word) : s.push a = s.setStack (a :: s.stack) := rfl

@[simp] theorem State.setFlag_eq_setReg (f : Bool) : s.setFlag f = s.setReg Reg.vf (flagByte f) := rfl

@[simp] theorem flagThenResult_eq (x : Reg) (res : Byte) (f : Bool) :
    flagThenResult x res f s = (s.setReg Reg.vf (flagByte f)).setReg x res := rfl

@[simp] theorem skipIf_eq_setPc (c : Bool) : skipIf c s = s.setPc (if c then s.pc + 2 else s.pc) := rfl

/-! ### The state in which execute begins (40_step_cycle.md R110, R113) -/

@[simp] theorem beginExecute_pc (rb : Byte) (ks : BitVec 16) : (beginExecute rb ks s).pc = s.pc + 2 := rfl
@[simp] theorem beginExecute_screen (rb : Byte) (ks : BitVec 16) : (beginExecute rb ks s).screen = .unchanged := rfl
@[simp] theorem beginExecute_randomByte (rb : Byte) (ks : BitVec 16) : (beginExecute rb ks s).randomByte = rb := rfl
@[simp] theorem beginExecute_keys (rb : Byte) (ks : BitVec 16) : (beginExecute rb ks s).keys = ks := rfl
@[simp] theorem beginExecute_reg (rb : Byte) (ks : BitVec 16) (r : Reg) :
    (beginExecute rb ks s).reg r = s.reg r := rfl
@[simp] theorem beginExecute_i (rb : Byte) (ks : BitVec 16) : (beginExecute rb ks s).i = s.i := rfl
@[simp] theorem beginExecute_stack (rb : Byte) (ks : BitVec 16) : (beginExecute rb ks s).stack = s.stack := rfl
@[simp] theorem beginExecute_dt (rb : Byte) (ks : BitVec 16) : (beginExecute rb ks s).dt = s.dt := rfl
@[simp] theorem beginExecute_st (rb : Byte) (ks : BitVec 16) : (beginExecute rb ks s).st = s.st := rfl
@[simp] theorem beginExecute_mem (rb : Byte) (ks : BitVec 16) : (beginExecute rb ks s).mem = s.mem := rfl
@[simp] theorem beginExecute_disp (rb : Byte) (ks : BitVec 16) : (beginExecute rb ks s).disp = s.disp := rfl
@[simp] theorem beginExecute_params (rb : Byte) (ks : BitVec 16) : (beginExecute rb ks s).params = s.params := rfl
@[simp] theorem beginExecute_agenda (rb : Byte) (ks : BitVec 16) : (beginExecute rb ks s).agenda = s.agenda := rfl
@[simp] theorem beginExecute_turn (rb : Byte) (ks : BitVec 16) : (beginExecute rb ks s).turn = s.turn := rfl

end Sys2Proof.Machine
end

