-- ==== Sys2Proof/Laws/Memory.lean ====
section
/-! SUPPORT. What the memory operations do, once each: reads, writes, and that each keeps the canonical form. -/

namespace Sys2Proof.Machine

variable {m : Memory} {a c : Nat} {b : Byte}

/-! ### One cell -/

theorem Memory.cell_eq_unlisted (h : ∀ d ∈ m, d.1 ≠ a) : m.cell a = Memory.unlisted := by
  induction m with
  | nil => rfl
  | cons d m ih =>
    have hd : d.1 ≠ a := h d (by simp)
    simp only [Memory.cell, hd, if_false]
    exact ih fun e he => h e (by simp [he])

theorem Memory.wf_tail {d : Host.Cell} (h : Memory.wf (d :: m)) : m.wf :=
  ⟨(List.pairwise_cons.mp h.1).2, fun e he => h.2 e (by simp [he])⟩

theorem Memory.cell_put_of_ne (h : c ≠ a) : (m.put a b).cell c = m.cell c := by
  have h' : a ≠ c := fun e => h e.symm
  induction m with
  | nil => by_cases hb : b = Memory.unlisted <;> simp [Memory.put, Memory.cell, hb, h']
  | cons d m ih =>
    unfold Memory.put
    split
    · by_cases hb : b = Memory.unlisted <;> simp [Memory.cell, hb, h']
    · split
      next had =>
        by_cases hb : b = Memory.unlisted <;> simp [Memory.cell, hb, h', ← had]
      next => simp only [Memory.cell, ih]

theorem Memory.cell_put_same (h : m.wf) : (m.put a b).cell a = b := by
  induction m with
  | nil => by_cases hb : b = Memory.unlisted <;> simp [Memory.put, Memory.cell, hb]
  | cons d m ih =>
    have hp := List.pairwise_cons.mp h.1
    have habs : ∀ k, k ≤ d.1 → Memory.cell m k = Memory.unlisted := fun k hk =>
      Memory.cell_eq_unlisted fun e he => by have := hp.1 e he; omega
    unfold Memory.put
    split
    next hlt =>
      by_cases hb : b = Memory.unlisted
      · have hne : d.1 ≠ a := by omega
        simp [hb, Memory.cell, hne, habs a (by omega)]
      · simp [hb, Memory.cell]
    next =>
      split
      next hEq =>
        by_cases hb : b = Memory.unlisted
        · simp [hb, habs a (by omega)]
        · simp [hb, Memory.cell]
      next hne =>
        have hne' : d.1 ≠ a := fun e => hne e.symm
        simp only [Memory.cell, hne', if_false]
        exact ih (Memory.wf_tail h)

theorem Memory.mem_put {d : Host.Cell} (h : d ∈ m.put a b) : d = (a, b) ∧ b ≠ Memory.unlisted ∨ d ∈ m := by
  induction m with
  | nil =>
    by_cases hb : b = Memory.unlisted
    · simp [Memory.put, hb] at h
    · simp only [Memory.put, hb, if_false, List.mem_singleton] at h
      exact .inl ⟨h, hb⟩
  | cons e m ih =>
    unfold Memory.put at h
    by_cases hb : b = Memory.unlisted
    · simp only [hb, if_true] at h ih
      split at h
      · exact .inr h
      · split at h
        · exact .inr (List.mem_cons_of_mem _ h)
        · rcases List.mem_cons.mp h with rfl | h
          · simp
          · rcases ih h with ⟨_, hx⟩ | hx
            · exact absurd rfl hx
            · exact .inr (List.mem_cons_of_mem _ hx)
    · simp only [hb, if_false] at h
      split at h
      · rcases List.mem_cons.mp h with rfl | h
        · exact .inl ⟨rfl, hb⟩
        · exact .inr h
      · split at h
        · rcases List.mem_cons.mp h with rfl | h
          · exact .inl ⟨rfl, hb⟩
          · exact .inr (List.mem_cons_of_mem _ h)
        · rcases List.mem_cons.mp h with rfl | h
          · simp
          · rcases ih h with hx | hx
            · exact .inl hx
            · exact .inr (List.mem_cons_of_mem _ hx)

theorem Memory.put_wf (h : m.wf) (ha : a < 4096) : (m.put a b).wf := by
  refine ⟨?_, fun d hd => ?_⟩
  · induction m with
    | nil => by_cases hb : b = Memory.unlisted <;> simp [Memory.put, hb]
    | cons e m ih =>
      have hp := List.pairwise_cons.mp h.1
      unfold Memory.put
      split
      next hlt =>
        by_cases hb : b = Memory.unlisted
        · simpa [hb] using hp
        · simp only [hb, if_false, List.pairwise_cons]
          refine ⟨fun d hd => ?_, hp⟩
          rcases List.mem_cons.mp hd with rfl | hd
          · exact hlt
          · exact Nat.lt_trans hlt (hp.1 d hd)
      next hge =>
        split
        next heq =>
          by_cases hb : b = Memory.unlisted
          · simpa [hb] using hp.2
          · simp only [hb, if_false, List.pairwise_cons]
            exact ⟨fun d hd => heq ▸ hp.1 d hd, hp.2⟩
        next hne =>
          refine List.pairwise_cons.mpr ⟨fun d hd => ?_, ih (Memory.wf_tail h)⟩
          rcases Memory.mem_put hd with ⟨rfl, _⟩ | hd
          · show e.1 < a
            omega
          · exact hp.1 d hd
  · rcases Memory.mem_put hd with ⟨rfl, hb⟩ | hd
    · exact ⟨ha, hb⟩
    · exact h.2 d hd

/-- Equal memories are equal data: a canonical memory is determined by what its addresses hold. -/
theorem Memory.eq_of_cell_eq {m' : Memory} (h : m.wf) (h' : m'.wf) (he : ∀ k, m.cell k = m'.cell k) : m = m' := by
  induction m generalizing m' with
  | nil =>
    cases m' with
    | nil => rfl
    | cons d m' =>
      have := he d.1
      simp only [Memory.cell, if_true] at this
      exact absurd this.symm (h'.2 d (by simp)).2
  | cons d m ih =>
    cases m' with
    | nil =>
      have := he d.1
      simp only [Memory.cell, if_true] at this
      exact absurd this (h.2 d (by simp)).2
    | cons e m' =>
      have hp := (List.pairwise_cons.mp h.1).1
      have hp' := (List.pairwise_cons.mp h'.1).1
      have hd := (h.2 d (by simp)).2
      have hev := (h'.2 e (by simp)).2
      have hk : d.1 = e.1 := by
        rcases Nat.lt_trichotomy d.1 e.1 with hlt | heq | hgt
        · have h1 := he d.1
          have hz : Memory.cell (e :: m') d.1 = Memory.unlisted := Memory.cell_eq_unlisted fun x hx => by
            rcases List.mem_cons.mp hx with rfl | hx
            · omega
            · have := hp' x hx; omega
          rw [hz] at h1
          simp only [Memory.cell, if_true] at h1
          exact absurd h1 hd
        · exact heq
        · have h1 := he e.1
          have hz : Memory.cell (d :: m) e.1 = Memory.unlisted := Memory.cell_eq_unlisted fun x hx => by
            rcases List.mem_cons.mp hx with rfl | hx
            · omega
            · have := hp x hx; omega
          rw [hz] at h1
          simp only [Memory.cell, if_true] at h1
          exact absurd h1.symm hev
      have hv : d.2 = e.2 := by
        have h1 := he d.1
        simpa [Memory.cell, hk] using h1
      have hde : d = e := Prod.ext hk hv
      subst hde
      congr 1
      refine ih (Memory.wf_tail h) (Memory.wf_tail h') fun k => ?_
      by_cases hkd : d.1 = k
      · rw [Memory.cell_eq_unlisted fun x hx => by have := hp x hx; omega,
          Memory.cell_eq_unlisted fun x hx => by have := hp' x hx; omega]
      · simpa [Memory.cell, hkd] using he k

/-! ### Byte accesses (20_memory.md R51, R52) -/

theorem Memory.read_of_lt (h : a < 4096) : m.read a = .ok (m.cell a) := by simp [Memory.read, h]

theorem Memory.read_of_le (h : 4096 ≤ a) : m.read a = .error (.outOfBounds a) := by
  simp [Memory.read, Nat.not_lt.mpr h]

theorem Memory.write_of_lt (h : a < 4096) : m.write a b = .ok (m.put a b) := by simp [Memory.write, h]

theorem Memory.write_of_le (h : 4096 ≤ a) : m.write a b = .error (.outOfBounds a) := by
  simp [Memory.write, Nat.not_lt.mpr h]

theorem Memory.read_put_same (h : m.wf) (ha : a < 4096) : (m.put a b).read a = .ok b := by
  rw [Memory.read_of_lt ha, Memory.cell_put_same h]

theorem Memory.read_put_of_ne (h : c ≠ a) : (m.put a b).read c = m.read c := by
  simp only [Memory.read, Memory.cell_put_of_ne h]

/-! ### Bulk write (R54) -/

theorem Memory.writeBytes_wf {bs : List Byte} (h : m.wf) : (m.writeBytes a bs).1.wf := by
  induction bs generalizing m a with
  | nil => exact h
  | cons b bs ih =>
    by_cases ha : a < 4096
    · simpa [Memory.writeBytes, Memory.write_of_lt ha] using ih (Memory.put_wf h ha)
    · simpa [Memory.writeBytes, Memory.write_of_le (Nat.not_lt.mp ha)] using h

theorem Memory.read_writeBytes_outside {bs : List Byte} (h : c < a ∨ a + bs.length ≤ c) :
    (m.writeBytes a bs).1.read c = m.read c := by
  induction bs generalizing m a with
  | nil => rfl
  | cons b bs ih =>
    simp only [List.length_cons] at h
    by_cases ha : a < 4096
    · have hne : c ≠ a := by omega
      simp only [Memory.writeBytes, Memory.write_of_lt ha]
      rw [ih (by omega), Memory.read_put_of_ne hne]
    · simp [Memory.writeBytes, Memory.write_of_le (Nat.not_lt.mp ha)]

theorem Memory.read_writeBytes_inside {bs : List Byte} {k : Nat} (h : m.wf) (hk : bs[k]? = some b)
    (ha : a + k < 4096) : (m.writeBytes a bs).1.read (a + k) = .ok b := by
  induction bs generalizing m a k with
  | nil => simp at hk
  | cons d bs ih =>
    have ha' : a < 4096 := by omega
    simp only [Memory.writeBytes, Memory.write_of_lt ha']
    cases k with
    | zero =>
      simp only [List.getElem?_cons_zero, Option.some.injEq] at hk
      rw [Memory.read_writeBytes_outside (by omega), Nat.add_zero, Memory.read_put_same h ha', hk]
    | succ k =>
      rw [show a + (k + 1) = a + 1 + k by omega]
      exact ih (Memory.put_wf h ha') (by simpa using hk) (by omega)

theorem Memory.writeBytes_fits {bs : List Byte} (h : bs = [] ∨ a + bs.length ≤ 4096) :
    (m.writeBytes a bs).2 = none := by
  induction bs generalizing m a with
  | nil => rfl
  | cons b bs ih =>
    have h' : a + (bs.length + 1) ≤ 4096 := by simpa using h
    simp only [Memory.writeBytes, Memory.write_of_lt (show a < 4096 by omega)]
    exact ih (.inr (by omega))

theorem Memory.writeBytes_overruns {bs : List Byte} (h : bs ≠ []) (hl : 4096 < a + bs.length) :
    (m.writeBytes a bs).2 = some (.outOfBounds (max a 4096)) := by
  induction bs generalizing m a with
  | nil => exact absurd rfl h
  | cons b bs ih =>
    simp only [List.length_cons] at hl
    by_cases ha : a < 4096
    · simp only [Memory.writeBytes, Memory.write_of_lt ha]
      have hbs : bs ≠ [] := by rintro rfl; simp at hl; omega
      rw [ih hbs (by omega), show max (a + 1) 4096 = max a 4096 by omega]
    · simp [Memory.writeBytes, Memory.write_of_le (Nat.not_lt.mp ha), show max a 4096 = a by omega]

/-! ### The two-byte read (R53) -/

theorem Memory.read16_of_lt (h : a + 1 < 4096) :
    m.read16 a = .ok (wordOfBytes (m.cell a) (m.cell (a + 1))) := by
  simp [Memory.read16, Memory.read_of_lt h, Memory.read_of_lt (show a < 4096 by omega)]

theorem Memory.read16_last : m.read16 4095 = .error (.outOfBounds 4096) := by
  simp [Memory.read16, Memory.read]

theorem Memory.read16_of_le (h : 4096 ≤ a) : m.read16 a = .error (.outOfBounds a) := by
  simp [Memory.read16, Memory.read_of_le h]

/-! ### The sprite read (R55) -/

theorem Memory.readSprite_fits {h : Nat} (hf : h = 0 ∨ a + h ≤ 4096) :
    ∃ rows, m.readSprite a h = .ok rows ∧ rows.length = h ∧
      ∀ r row, rows[r]? = some row → m.read (a + r) = .ok row := by
  induction h generalizing a with
  | zero => exact ⟨[], rfl, rfl, by simp⟩
  | succ h ih =>
    have ha : a < 4096 := by omega
    obtain ⟨rows, hr, hl, hb⟩ := ih (a := a + 1) (by omega)
    refine ⟨m.cell a :: rows, by simp [Memory.readSprite, Memory.read_of_lt ha, hr], by simp [hl], fun r row hrow => ?_⟩
    cases r with
    | zero => simpa [Memory.read_of_lt ha] using hrow
    | succ r =>
      have := hb r row (by simpa using hrow)
      rwa [show a + (r + 1) = a + 1 + r by omega]

theorem Memory.readSprite_overruns {h : Nat} (h0 : 0 < h) (hl : 4096 < a + h) :
    m.readSprite a h = .error (.outOfBounds (max a 4096)) := by
  induction h generalizing a with
  | zero => omega
  | succ h ih =>
    by_cases ha : a < 4096
    · simp only [Memory.readSprite, Memory.read_of_lt ha, ih (a := a + 1) (by omega) (by omega)]
      rw [show max (a + 1) 4096 = max a 4096 by omega]
    · simp [Memory.readSprite, Memory.read_of_le (Nat.not_lt.mp ha), show max a 4096 = a by omega]

end Sys2Proof.Machine
end

