-- ==== Sys2Proof/Laws/Ops.lean ====
section
/-! SUPPORT. What each shared operation does, said once: raising an error, bulk stores, block loads, the range helper, the
step. Later proofs cite these and do not unfold the operations. -/

namespace Sys2Proof.Machine

/-! ### Raising an error (00_scope.md R11, 60_exceptions.md R267) -/

/-- `raise e s` is a fault that reports `e` and leaves `s` as it is. -/
theorem raise_eq_fault (e : Error) (s : State) : ∃ f : Fault, raise e s = .fault f ∧ f.error = e ∧ f.left = s := by
  cases e <;> exact ⟨_, rfl, rfl, rfl⟩

/-- What going on after a check can do. -/
theorem orRaise_cases {α : Type} (r : Except Error α) (s : State) (k : α → Outcome) :
    (∃ a, r = .ok a ∧ orRaise r s k = k a) ∨ ∃ e, r = .error e ∧ orRaise r s k = raise e s := by
  cases r with
  | ok a => exact .inl ⟨a, rfl, rfl⟩
  | error e => exact .inr ⟨e, rfl, rfl⟩

/-! ### Bulk store (20_memory.md R54) -/

theorem storeBytes_fits {a : Nat} {bs : List Byte} (s : State) (h : bs = [] ∨ a + bs.length ≤ 4096) :
    storeBytes a bs s = .next (s.setMem (s.mem.writeBytes a bs).1) := by
  unfold storeBytes
  split
  next m heq => rw [heq]
  next m e heq =>
    have := Memory.writeBytes_fits (m := s.mem) h
    simp [heq] at this

theorem storeBytes_overruns {a : Nat} {bs : List Byte} (s : State) (h : bs ≠ []) (hl : 4096 < a + bs.length) :
    storeBytes a bs s = .fault (.outOfBounds (max a 4096) (s.setMem (s.mem.writeBytes a bs).1)) := by
  have he := Memory.writeBytes_overruns (m := s.mem) h hl
  unfold storeBytes
  split
  next m heq => simp [heq] at he
  next m e heq =>
    simp only [heq, Option.some.injEq] at he
    rw [heq, he]
    rfl

/-- Everything a bulk store can do. -/
theorem storeBytes_cases (a : Nat) (bs : List Byte) (s : State) :
    ((bs = [] ∨ a + bs.length ≤ 4096) ∧ storeBytes a bs s = .next (s.setMem (s.mem.writeBytes a bs).1)) ∨
    (bs ≠ [] ∧ 4096 < a + bs.length ∧
      storeBytes a bs s = .fault (.outOfBounds (max a 4096) (s.setMem (s.mem.writeBytes a bs).1))) := by
  by_cases h : bs = [] ∨ a + bs.length ≤ 4096
  · exact .inl ⟨h, storeBytes_fits s h⟩
  · obtain ⟨h1, h2⟩ := not_or.mp h
    exact .inr ⟨h1, Nat.not_le.mp h2, storeBytes_overruns s h1 (Nat.not_le.mp h2)⟩

/-! ### The range helper (43_index_memory.md R188) -/

/-- The ranges of `Fx55` and `Fx65` start at V0, so they never fail. -/
theorem regRange_zero : ∀ x : Reg, regRange 0 x = .ok ((List.finRange 16).take (x.val + 1)) := by decide

theorem length_regsUpTo (x : Reg) : ((List.finRange 16).take (x.val + 1)).length = x.val + 1 := by
  simp

theorem mem_regsUpTo : ∀ x r : Reg, r ∈ (List.finRange 16).take (x.val + 1) ↔ r ≤ x := by decide

theorem getElem?_regsUpTo {x k : Reg} (h : k ≤ x) : ((List.finRange 16).take (x.val + 1))[k.val]? = some k := by
  have : k.val < x.val + 1 := Nat.lt_succ_of_le h
  simp [this]

theorem sorted_regsUpTo : ∀ x : Reg, ((List.finRange 16).take (x.val + 1)).Pairwise (· < ·) := by decide

/-! ### Block load (R187) -/

/-- Everything a block load can do, for registers named in ascending order: it writes registers only, those whose address
is in bounds get the byte there, the others keep their value, and the error names the lowest address out of bounds. -/
theorem loadRegs_spec (base : Nat) (ks : List Reg) (s : State) (hs : ks.Pairwise (· < ·)) :
    ∃ v, (∀ k ∈ ks, base + k.val < 4096 → s.mem.read (base + k.val) = .ok (State.reg { s with v := v } k)) ∧
      (∀ r, (r ∉ ks ∨ 4096 ≤ base + r.val) → State.reg { s with v := v } r = s.reg r) ∧
      ((∀ k ∈ ks, base + k.val < 4096) → loadRegs base ks s = .next { s with v := v }) ∧
      (∀ k ∈ ks, 4096 ≤ base + k.val → (∀ j ∈ ks, base + j.val < 4096 ∨ k ≤ j) →
        loadRegs base ks s = .fault (.outOfBounds (base + k.val) { s with v := v })) := by
  induction ks generalizing s with
  | nil => exact ⟨s.v, by simp, fun _ _ => rfl, fun _ => rfl, by simp⟩
  | cons k ks ih =>
    have hp := List.pairwise_cons.mp hs
    by_cases hk : base + k.val < 4096
    · obtain ⟨v, h1, h2, h3, h4⟩ := ih (s.setReg k (s.mem.cell (base + k.val))) hp.2
      have hkk : k ∉ ks := fun h => absurd (hp.1 k h) (lt_irrefl k)
      have hstep : loadRegs base (k :: ks) s = loadRegs base ks (s.setReg k (s.mem.cell (base + k.val))) := by
        simp [loadRegs, Memory.read_of_lt hk]
      refine ⟨v, fun j hj hb => ?_, fun r hr => ?_, fun hall => ?_, fun j hj hb hmin => ?_⟩
      · rcases List.mem_cons.mp hj with rfl | hj
        · have := h2 j (.inl hkk)
          rw [Memory.read_of_lt hk]
          exact congrArg Except.ok ((State.reg_setReg_same s j _).symm.trans this.symm)
        · exact h1 j hj hb
      · have hne : r ≠ k := by
          rintro rfl
          rcases hr with hr | hr
          · simp at hr
          · omega
        have hr' : r ∉ ks ∨ 4096 ≤ base + r.val := hr.imp (fun h hm => h (List.mem_cons_of_mem _ hm)) id
        exact (h2 r hr').trans (State.reg_setReg_of_ne s k r _ hne)
      · rw [hstep]
        exact h3 fun j hj => hall j (List.mem_cons_of_mem _ hj)
      · rw [hstep]
        have hjk : j ∈ ks := by
          rcases List.mem_cons.mp hj with rfl | hj
          · omega
          · exact hj
        exact h4 j hjk hb fun i hi => hmin i (List.mem_cons_of_mem _ hi)
    · have hk' := Nat.not_lt.mp hk
      have hstep : loadRegs base (k :: ks) s = .fault (.outOfBounds (base + k.val) s) := by
        simp [loadRegs, Memory.read_of_le hk', raise]
      have hall : ∀ j ∈ k :: ks, 4096 ≤ base + j.val := fun j hj => by
        rcases List.mem_cons.mp hj with rfl | hj
        · exact hk'
        · have : k.val < j.val := hp.1 j hj
          omega
      refine ⟨s.v, fun j hj hb => ?_, fun _ _ => rfl, fun h => ?_, fun j hj hb hmin => ?_⟩
      · have := hall j hj
        omega
      · have := h k (by simp)
        omega
      · have hjk : j = k := by
          rcases hmin k (by simp) with h | h
          · omega
          · rcases List.mem_cons.mp hj with rfl | hj
            · rfl
            · exact absurd (hp.1 j hj) (not_lt.mpr h)
        rw [hjk]
        exact hstep

/-- LD Vx, [I] as one block load of `V0` to `V[x]` (R187). -/
theorem loadBlock_spec (base : Nat) (x : Reg) (s : State) :
    ∃ v, (∀ k ≤ x, base + k.val < 4096 → s.mem.read (base + k.val) = .ok (State.reg { s with v := v } k)) ∧
      (∀ r, (x < r ∨ 4096 ≤ base + r.val) → State.reg { s with v := v } r = s.reg r) ∧
      (base + x.val < 4096 → loadRegs base ((List.finRange 16).take (x.val + 1)) s = .next { s with v := v }) ∧
      (4096 ≤ base + x.val → loadRegs base ((List.finRange 16).take (x.val + 1)) s =
        .fault (.outOfBounds (max base 4096) { s with v := v })) := by
  obtain ⟨v, h1, h2, h3, h4⟩ := loadRegs_spec base _ s (sorted_regsUpTo x)
  refine ⟨v, fun k hk => h1 k ((mem_regsUpTo x k).mpr hk), fun r hr => h2 r ?_, fun hx => h3 fun k hk => ?_, fun hx => ?_⟩
  · exact hr.imp (fun h hm => absurd ((mem_regsUpTo x r).mp hm) (not_le.mpr h)) id
  · have : k.val ≤ x.val := (mem_regsUpTo x k).mp hk
    omega
  · have hxl := x.isLt
    have hj : max base 4096 - base < 16 := by omega
    have := h4 ⟨max base 4096 - base, hj⟩ ((mem_regsUpTo x _).mpr (by show _ ≤ x.val; dsimp only; omega))
      (by dsimp only; omega) fun i hi => by
        by_cases hb : base + i.val < 4096
        · exact .inl hb
        · exact .inr (by show _ ≤ i.val; dsimp only; omega)
    rw [this, show base + (max base 4096 - base) = max base 4096 by omega]

/-! ### Reset -/

theorem reset_mem_wf : State.reset.mem.wf := by decide

@[simp] theorem resetWith_reg (p : Params) (r : Reg) : (State.resetWith p).reg r = 0 := by
  simp [State.resetWith, State.reg]

/-! ### Fetch and step (40_step_cycle.md R110 to R115) -/

theorem fetch_eq_ok_iff {s : State} {w : Word} :
    fetch s = .ok w ↔ s.pc.toNat + 1 < 4096 ∧
      w = wordOfBytes (s.mem.cell s.pc.toNat) (s.mem.cell (s.pc.toNat + 1)) := by
  unfold fetch
  by_cases h : s.pc.toNat + 1 < 4096
  · simp [Memory.read16_of_lt h, h, eq_comm]
  · by_cases h' : 4096 ≤ s.pc.toNat
    · simp [Memory.read16_of_le h', h]
    · simp [show s.pc.toNat = 4095 by omega, Memory.read16_last]

/-- After a successful fetch the increment does not wrap (R113, 10_state.md R27). -/
theorem pc_advance_of_fetch {s : State} {w : Word} (h : fetch s = .ok w) :
    (s.pc + 2).toNat = s.pc.toNat + 2 ∧ s.pc.toNat ≤ 4094 := by
  have := (fetch_eq_ok_iff.mp h).1
  constructor
  · have h2 : (2 : Word).toNat = 2 := rfl
    rw [BitVec.toNat_add, h2]
    omega
  · omega

theorem stepOp_of_ok {s : State} {w : Word} {i : Instr} (hf : fetch s = .ok w) (hd : decode w = .ok i)
    (rb : Byte) (ks : BitVec 16) : stepOp rb ks s = exec i (beginExecute rb ks s) := by
  simp [stepOp, hf, hd]

theorem stepOp_of_fetch_error {s : State} {e : Error} (hf : fetch s = .error e) (rb : Byte) (ks : BitVec 16) :
    stepOp rb ks s = raise e s := by
  simp [stepOp, hf]

theorem stepOp_of_decode_error {s : State} {w : Word} {e : Error} (hf : fetch s = .ok w) (hd : decode w = .error e)
    (rb : Byte) (ks : BitVec 16) : stepOp rb ks s = raise e s := by
  simp [stepOp, hf, hd]

/-- Everything a STEP can do. -/
theorem stepOp_cases (rb : Byte) (ks : BitVec 16) (s : State) :
    (∃ w i, fetch s = .ok w ∧ decode w = .ok i ∧ stepOp rb ks s = exec i (beginExecute rb ks s)) ∨
    (∃ e, (fetch s = .error e ∨ ∃ w, fetch s = .ok w ∧ decode w = .error e) ∧ stepOp rb ks s = raise e s) := by
  cases hf : fetch s with
  | error e => exact .inr ⟨e, .inl rfl, stepOp_of_fetch_error hf rb ks⟩
  | ok w =>
    cases hd : decode w with
    | error e => exact .inr ⟨e, .inr ⟨w, rfl, hd⟩, stepOp_of_decode_error hf hd rb ks⟩
    | ok i => exact .inl ⟨w, i, rfl, hd, stepOp_of_ok hf hd rb ks⟩

theorem step_of_agenda_cons {s : State} {op : HostOp} {rest : List HostOp} (h : s.agenda = op :: rest) :
    step s = perform op (s.setAgenda rest) := by
  simp [step, h]

theorem step_of_agenda_nil {s : State} (h : s.agenda = []) :
    step s = stepOp (Config.freeRandomByte s.turn) (Config.freeKeys s.turn) (s.setTurn (s.turn + 1)) := by
  simp [step, h]

/-- A run goes on from the next state of a step. -/
theorem run_succ_of_next {s t : State} (k : Nat) (h : step s = .next t) :
    Host.Core.run Sys2Proof.core (k + 1) s = Host.Core.run Sys2Proof.core k t := by
  have hc : Sys2Proof.core.step s = .next t := h
  simp [Host.Core.run, hc]

end Sys2Proof.Machine
end

