-- ==== Sys2Proof/Laws/Decode.lean ====
section
/-! SUPPORT. The fields of the words the formats build (30_encoding.md R81, R82), by arithmetic on their values. -/

namespace Sys2Proof

@[simp] theorem regOfNibble_nibbleOfReg (r : Reg) : regOfNibble (nibbleOfReg r) = r := rfl

@[simp] theorem nibbleOfReg_regOfNibble (n : BitVec 4) : nibbleOfReg (regOfNibble n) = n := rfl

theorem toNat_nibbleOfReg (r : Reg) : (nibbleOfReg r).toNat = r.val := rfl

/-! ### Values of fields and of formats -/

theorem toNat_nib3 (w : Word) : (nib3 w).toNat = w.toNat / 4096 := by
  have := w.isLt
  simp [nib3, Nat.shiftRight_eq_div_pow]
  omega

theorem toNat_nib2 (w : Word) : (nib2 w).toNat = w.toNat / 256 % 16 := by
  simp [nib2, Nat.shiftRight_eq_div_pow]

theorem toNat_nib1 (w : Word) : (nib1 w).toNat = w.toNat / 16 % 16 := by
  simp [nib1, Nat.shiftRight_eq_div_pow]

theorem toNat_nib0 (w : Word) : (nib0 w).toNat = w.toNat % 16 := by
  simp [nib0]

theorem toNat_lowByte (w : Word) : (lowByte w).toNat = w.toNat % 256 := by
  simp [lowByte]

theorem toNat_hiByte (w : Word) : (hiByte w).toNat = w.toNat / 256 := by
  have := w.isLt
  simp [hiByte, Nat.shiftRight_eq_div_pow]
  omega

theorem toNat_lowAddr (w : Word) : (lowAddr w).toNat = w.toNat % 4096 := by
  simp [lowAddr]

theorem toNat_append_eq {n m : Nat} (a : BitVec n) (b : BitVec m) :
    (a ++ b).toNat = a.toNat * 2 ^ m + b.toNat := by
  rw [BitVec.toNat_append, ← Nat.shiftLeft_add_eq_or_of_lt b.isLt, Nat.shiftLeft_eq]

theorem toNat_formatA (op : BitVec 4) (nnn : Addr) : (formatA op nnn).toNat = op.toNat * 4096 + nnn.toNat :=
  toNat_append_eq op nnn

theorem toNat_formatI (op : BitVec 4) (x : Reg) (kk : Byte) :
    (formatI op x kk).toNat = op.toNat * 4096 + x.val * 256 + kk.toNat := by
  have h1 : (formatI op x kk).toNat = (op ++ nibbleOfReg x).toNat * 2 ^ 8 + kk.toNat := toNat_append_eq _ kk
  rw [h1, toNat_append_eq, toNat_nibbleOfReg]
  omega

theorem toNat_formatR (op : BitVec 4) (x y : Reg) (n : BitVec 4) :
    (formatR op x y n).toNat = op.toNat * 4096 + x.val * 256 + y.val * 16 + n.toNat := by
  have h1 : (formatR op x y n).toNat = (op ++ nibbleOfReg x ++ nibbleOfReg y).toNat * 2 ^ 4 + n.toNat :=
    toNat_append_eq _ n
  rw [h1, toNat_append_eq, toNat_append_eq, toNat_nibbleOfReg, toNat_nibbleOfReg]
  omega

theorem toNat_wordOfBytes (hi lo : Byte) : (wordOfBytes hi lo).toNat = hi.toNat * 256 + lo.toNat :=
  toNat_append_eq hi lo

/-! ### Fields of formats -/

section
variable (op n : BitVec 4) (nnn : Addr) (x y : Reg) (kk : Byte)

@[simp] theorem nib3_formatA : nib3 (formatA op nnn) = op :=
  BitVec.eq_of_toNat_eq (by rw [toNat_nib3, toNat_formatA]; omega)

@[simp] theorem lowAddr_formatA : lowAddr (formatA op nnn) = nnn :=
  BitVec.eq_of_toNat_eq (by rw [toNat_lowAddr, toNat_formatA]; omega)

@[simp] theorem nib3_formatI : nib3 (formatI op x kk) = op :=
  BitVec.eq_of_toNat_eq (by rw [toNat_nib3, toNat_formatI]; omega)

@[simp] theorem nib2_formatI : nib2 (formatI op x kk) = nibbleOfReg x :=
  BitVec.eq_of_toNat_eq (by rw [toNat_nib2, toNat_formatI, toNat_nibbleOfReg]; omega)

@[simp] theorem lowByte_formatI : lowByte (formatI op x kk) = kk :=
  BitVec.eq_of_toNat_eq (by rw [toNat_lowByte, toNat_formatI]; omega)

@[simp] theorem nib3_formatR : nib3 (formatR op x y n) = op :=
  BitVec.eq_of_toNat_eq (by rw [toNat_nib3, toNat_formatR]; omega)

@[simp] theorem nib2_formatR : nib2 (formatR op x y n) = nibbleOfReg x :=
  BitVec.eq_of_toNat_eq (by rw [toNat_nib2, toNat_formatR, toNat_nibbleOfReg]; omega)

@[simp] theorem nib1_formatR : nib1 (formatR op x y n) = nibbleOfReg y :=
  BitVec.eq_of_toNat_eq (by rw [toNat_nib1, toNat_formatR, toNat_nibbleOfReg]; omega)

@[simp] theorem nib0_formatR : nib0 (formatR op x y n) = n :=
  BitVec.eq_of_toNat_eq (by rw [toNat_nib0, toNat_formatR]; omega)

end

/-! ### A word is its fields -/

theorem formatA_fields (w : Word) : formatA (nib3 w) (lowAddr w) = w :=
  BitVec.eq_of_toNat_eq (by rw [toNat_formatA, toNat_nib3, toNat_lowAddr]; omega)

theorem formatI_fields (w : Word) : formatI (nib3 w) (regOfNibble (nib2 w)) (lowByte w) = w :=
  BitVec.eq_of_toNat_eq (by
    rw [toNat_formatI, ← toNat_nibbleOfReg, nibbleOfReg_regOfNibble, toNat_nib3, toNat_nib2, toNat_lowByte]; omega)

theorem formatR_fields (w : Word) :
    formatR (nib3 w) (regOfNibble (nib2 w)) (regOfNibble (nib1 w)) (nib0 w) = w :=
  BitVec.eq_of_toNat_eq (by
    rw [toNat_formatR, ← toNat_nibbleOfReg, ← toNat_nibbleOfReg, nibbleOfReg_regOfNibble, nibbleOfReg_regOfNibble,
      toNat_nib3, toNat_nib2, toNat_nib1, toNat_nib0]; omega)

/-- The word of two bytes as 20_memory.md R53 writes it. -/
theorem wordOfBytes_eq_or (hi lo : Byte) : wordOfBytes hi lo = (hi.setWidth 16 <<< 8) ||| lo.setWidth 16 := by
  have hh := hi.isLt
  have hl := lo.isLt
  apply BitVec.eq_of_toNat_eq
  rw [toNat_wordOfBytes, BitVec.toNat_or, BitVec.toNat_shiftLeft, BitVec.toNat_setWidth, BitVec.toNat_setWidth,
    Nat.shiftLeft_eq, Nat.mod_eq_of_lt (show lo.toNat < 2 ^ 16 by omega),
    Nat.mod_eq_of_lt (show hi.toNat < 2 ^ 16 by omega), Nat.mod_eq_of_lt (show hi.toNat * 2 ^ 8 < 2 ^ 16 by omega),
    ← Nat.shiftLeft_eq, ← Nat.shiftLeft_add_eq_or_of_lt hl, Nat.shiftLeft_eq]

/-- A word is the word of its two bytes. -/
@[simp] theorem wordOfBytes_hiByte_lowByte (w : Word) : wordOfBytes (hiByte w) (lowByte w) = w :=
  BitVec.eq_of_toNat_eq (by rw [toNat_wordOfBytes, toNat_hiByte, toNat_lowByte]; omega)

/-! ### The masks of the opcode table (30_encoding.md R84) -/

theorem and_zero_lit {n : Nat} (a : BitVec n) : a &&& 0 = 0 := BitVec.and_zero

/-- Mask `F000` keeps the operation nibble. -/
theorem and_maskF000 (w : Word) : w &&& 0xF000 = formatA (nib3 w) 0 := by
  have h : formatA (nib3 w) (lowAddr w) &&& formatA 0xF 0 = formatA (nib3 w &&& 0xF) (lowAddr w &&& 0) :=
    BitVec.and_append
  rw [formatA_fields, show formatA 0xF 0 = 0xF000 from rfl] at h
  rw [h, show (0xF : BitVec 4) = BitVec.allOnes 4 from rfl, BitVec.and_allOnes, and_zero_lit]

/-- Mask `F00F` keeps the operation nibble and the low nibble. -/
theorem and_maskF00F (w : Word) : w &&& 0xF00F = formatR (nib3 w) 0 0 (nib0 w) := by
  have h : formatR (nib3 w) (regOfNibble (nib2 w)) (regOfNibble (nib1 w)) (nib0 w) &&& formatR 0xF 0 0 0xF =
      (nib3 w &&& 0xF) ++ (nib2 w &&& 0) ++ (nib1 w &&& 0) ++ (nib0 w &&& 0xF) := by
    refine Eq.trans (BitVec.and_append (x₁ := nib3 w ++ nib2 w ++ nib1 w)) ?_
    rw [BitVec.and_append (x₁ := nib3 w ++ nib2 w), BitVec.and_append]
    rfl
  rw [formatR_fields, show formatR 0xF 0 0 0xF = 0xF00F from rfl] at h
  rw [h, show (0xF : BitVec 4) = BitVec.allOnes 4 from rfl, BitVec.and_allOnes, BitVec.and_allOnes, and_zero_lit,
    and_zero_lit]
  rfl

/-- Mask `F0FF` keeps the operation nibble and the low byte. -/
theorem and_maskF0FF (w : Word) : w &&& 0xF0FF = formatI (nib3 w) 0 (lowByte w) := by
  have h : formatI (nib3 w) (regOfNibble (nib2 w)) (lowByte w) &&& formatI 0xF 0 0xFF =
      (nib3 w &&& 0xF) ++ (nib2 w &&& 0) ++ (lowByte w &&& 0xFF) := by
    refine Eq.trans (BitVec.and_append (x₁ := nib3 w ++ nib2 w)) ?_
    rw [BitVec.and_append]
    rfl
  rw [formatI_fields, show formatI 0xF 0 0xFF = 0xF0FF from rfl] at h
  rw [h, show (0xF : BitVec 4) = BitVec.allOnes 4 from rfl, show (0xFF : BitVec 8) = BitVec.allOnes 8 from rfl,
    BitVec.and_allOnes, BitVec.and_allOnes, and_zero_lit]
  rfl

end Sys2Proof
end

