-- ==== Sys2Proof/Laws/Screen.lean ====
section
/-! SUPPORT. The display pixel by pixel: flipping one, clearing all, and what one sprite row does (44_display.md). -/

namespace Sys2Proof.Machine

variable (d : Display)

/-- Two displays that show the same are the same. -/
theorem Display.eq_of_pixel_eq {d d' : Display} (h : ∀ x y, x < 64 → y < 32 → d.pixel x y = d'.pixel x y) : d = d' := by
  apply Vector.ext
  intro y hy
  apply Vector.ext
  intro x hx
  have := h x y hx hy
  simpa [Display.pixel, hx, hy] using this

theorem Display.pixel_off_screen {x y : Nat} (h : ¬ (x < 64 ∧ y < 32)) : d.pixel x y = false := by
  have : ¬ (y < 32 ∧ x < 64) := fun hh => h hh.symm
  simp only [Display.pixel, this, dif_neg, not_false_eq_true]

@[simp] theorem Display.pixel_clear (x y : Nat) : Display.clear.pixel x y = false := by
  simp [Display.clear, Display.pixel]

/-- Flipping changes one pixel, and none when it is off the screen. -/
theorem Display.pixel_flip (x y px py : Nat) :
    (d.flip px py).pixel x y =
      if x = px ∧ y = py ∧ px < 64 ∧ py < 32 then !d.pixel x y else d.pixel x y := by
  by_cases hp : py < 32 ∧ px < 64
  · by_cases hxy : y < 32 ∧ x < 64
    · obtain ⟨hy, hx⟩ := hxy
      obtain ⟨hpy, hpx⟩ := hp
      by_cases h1 : y = py
      · subst h1
        by_cases h2 : x = px
        · subst h2
          simp [Display.flip, Display.pixel, hpy, hpx]
        · have h2' : px ≠ x := fun e => h2 e.symm
          simp [Display.flip, Display.pixel, hpy, hpx, hx, h2, h2']
      · have h1' : py ≠ y := fun e => h1 e.symm
        simp [Display.flip, Display.pixel, hpy, hpx, hx, hy, h1, h1']
    · have hoff : ¬ (x < 64 ∧ y < 32) := fun h => hxy h.symm
      rw [Display.pixel_off_screen _ hoff, Display.pixel_off_screen _ hoff, if_neg]
      rintro ⟨rfl, rfl, h1, h2⟩
      exact hoff ⟨h1, h2⟩
  · have : ¬ (x = px ∧ y = py ∧ px < 64 ∧ py < 32) := fun h => hp ⟨h.2.2.2, h.2.2.1⟩
    simp [Display.flip, hp, this]

/-! ### One pixel of the blitter (44_display.md R203) -/

theorem blitPixel_pixel (px py x y : Nat) (acc : Display × Bool) :
    (blitPixel px py acc).1.pixel x y =
      if x = px ∧ y = py ∧ px < 64 ∧ py < 32 then !acc.1.pixel x y else acc.1.pixel x y := by
  unfold blitPixel
  split
  · exact Display.pixel_flip acc.1 x y px py
  next h =>
    rw [if_neg]
    rintro ⟨-, -, h1, h2⟩
    exact h ⟨h1, h2⟩

theorem blitPixel_report (px py : Nat) (acc : Display × Bool) :
    (blitPixel px py acc).2 = (acc.2 || acc.1.pixel px py) := by
  unfold blitPixel
  split
  · rfl
  next h => simp [Display.pixel_off_screen acc.1 h]

/-- The bit utility as the blitter calls it, with indices 0 to 7 only (30_encoding.md R94). -/
theorem bit_eq_ok_true_iff {row : Byte} {c : Nat} :
    bit row (7 - c) = .ok true ↔ row.getLsbD (7 - c) = true := by
  simp [bit, show 7 - c < 8 by omega]

/-- The pixels the columns `cs` of a sprite row visit. -/
def rowVisits (x0 py : Nat) (row : Byte) (cs : List Nat) (x y : Nat) : Prop :=
  x < 64 ∧ y < 32 ∧ y = py ∧ ∃ c ∈ cs, row.getLsbD (7 - c) = true ∧ x = x0 + c

/-- What the columns of a row do, for any list of different columns. -/
theorem blitColumns_spec (x0 py : Nat) (row : Byte) (cs : List Nat) (hcs : cs.Nodup) (acc : Display × Bool) :
    let out := cs.foldl (fun acc c => if bit row (7 - c) = .ok true then blitPixel (x0 + c) py acc else acc) acc
    (∀ x y, rowVisits x0 py row cs x y → out.1.pixel x y = !acc.1.pixel x y) ∧
    (∀ x y, ¬ rowVisits x0 py row cs x y → out.1.pixel x y = acc.1.pixel x y) ∧
    (out.2 = true ↔ acc.2 = true ∨ ∃ x y, rowVisits x0 py row cs x y ∧ acc.1.pixel x y = true) := by
  induction cs generalizing acc with
  | nil => simp [rowVisits]
  | cons c cs ih =>
    have hn := List.nodup_cons.mp hcs
    by_cases hbit : row.getLsbD (7 - c) = true
    · obtain ⟨h1, h2, h3⟩ := ih hn.2 (blitPixel (x0 + c) py acc)
      simp only [List.foldl_cons, bit_eq_ok_true_iff, hbit, if_true] at h1 h2 h3 ⊢
      have hsplit : ∀ x y, rowVisits x0 py row (c :: cs) x y ↔
          (x < 64 ∧ y < 32 ∧ y = py ∧ x = x0 + c) ∨ rowVisits x0 py row cs x y := by
        intro x y
        simp only [rowVisits, List.mem_cons, exists_eq_or_imp, hbit, true_and]
        tauto
      have hdisj : ∀ x y, (x < 64 ∧ y < 32 ∧ y = py ∧ x = x0 + c) → ¬ rowVisits x0 py row cs x y := by
        rintro x y ⟨-, -, -, hx⟩ ⟨-, -, -, c', hc', -, hx'⟩
        have : c' = c := by omega
        exact hn.1 (this ▸ hc')
      refine ⟨fun x y hv => ?_, fun x y hv => ?_, ?_⟩
      · rcases (hsplit x y).mp hv with hv | hv
        · rw [h2 x y (hdisj x y hv), blitPixel_pixel, if_pos ⟨hv.2.2.2, hv.2.2.1, by omega, by omega⟩]
        · rw [h1 x y hv, blitPixel_pixel, if_neg]
          rintro ⟨hx, hy, hx', hy'⟩
          exact hdisj x y ⟨by omega, by omega, hy, hx⟩ hv
      · have hv' := (not_congr (hsplit x y)).mp hv
        rw [h2 x y fun h => hv' (.inr h), blitPixel_pixel, if_neg]
        rintro ⟨hx, hy, hx', hy'⟩
        exact hv' (.inl ⟨by omega, by omega, hy, hx⟩)
      · rw [h3, blitPixel_report]
        constructor
        · rintro (h | ⟨x, y, hv, hp⟩)
          · rcases (Bool.or_eq_true _ _).mp h with h | h
            · exact .inl h
            · by_cases hon : x0 + c < 64 ∧ py < 32
              · exact .inr ⟨x0 + c, py, (hsplit _ _).mpr (.inl ⟨hon.1, hon.2, rfl, rfl⟩), h⟩
              · simp [Display.pixel_off_screen acc.1 hon] at h
          · rw [blitPixel_pixel, if_neg] at hp
            · exact .inr ⟨x, y, (hsplit x y).mpr (.inr hv), hp⟩
            · rintro ⟨hx, hy, hx', hy'⟩
              exact hdisj x y ⟨by omega, by omega, hy, hx⟩ hv
        · rintro (h | ⟨x, y, hv, hp⟩)
          · simp [h]
          · rcases (hsplit x y).mp hv with ⟨hx64, hy32, rfl, rfl⟩ | hv
            · simp [hp]
            · refine .inr ⟨x, y, hv, ?_⟩
              rw [blitPixel_pixel, if_neg]
              · exact hp
              · rintro ⟨hx, hy, hx', hy'⟩
                exact hdisj x y ⟨by omega, by omega, hy, hx⟩ hv
    · obtain ⟨h1, h2, h3⟩ := ih hn.2 acc
      have hsame : ∀ x y, rowVisits x0 py row (c :: cs) x y ↔ rowVisits x0 py row cs x y := by
        intro x y
        simp [rowVisits, hbit]
      simp only [List.foldl_cons, bit_eq_ok_true_iff, hbit, Bool.false_eq_true, if_false] at h1 h2 h3 ⊢
      exact ⟨fun x y hv => h1 x y ((hsame x y).mp hv), fun x y hv => h2 x y (mt (hsame x y).mpr hv),
        by simpa only [hsame] using h3⟩

/-- Everything one sprite row does to the display and to the report. -/
theorem blitRow_spec (x0 py : Nat) (row : Byte) (acc : Display × Bool) :
    (∀ x y, rowVisits x0 py row (List.range 8) x y → (blitRow x0 py row acc).1.pixel x y = !acc.1.pixel x y) ∧
    (∀ x y, ¬ rowVisits x0 py row (List.range 8) x y → (blitRow x0 py row acc).1.pixel x y = acc.1.pixel x y) ∧
    ((blitRow x0 py row acc).2 = true ↔
      acc.2 = true ∨ ∃ x y, rowVisits x0 py row (List.range 8) x y ∧ acc.1.pixel x y = true) :=
  blitColumns_spec x0 py row (List.range 8) List.nodup_range acc

/-- The pixels of a sprite are those of its first row and those of the rows below it. -/
theorem visited_cons (x0 py : Nat) (row : Byte) (rows : List Byte) (x y : Nat) :
    Visited x0 py (row :: rows) x y ↔
      rowVisits x0 py row (List.range 8) x y ∨ Visited x0 (py + 1) rows x y := by
  constructor
  · rintro ⟨hx, hy, r, c, row', hr, hc, hb, rfl, rfl⟩
    cases r with
    | zero =>
      simp only [List.getElem?_cons_zero, Option.some.injEq] at hr
      subst hr
      exact .inl ⟨hx, hy, rfl, c, List.mem_range.mpr hc, hb, rfl⟩
    | succ r => exact .inr ⟨hx, hy, r, c, row', by simpa using hr, hc, hb, rfl, by omega⟩
  · rintro (⟨hx, hy, rfl, c, hc, hb, rfl⟩ | ⟨hx, hy, r, c, row', hr, hc, hb, rfl, rfl⟩)
    · exact ⟨hx, hy, 0, c, row, rfl, List.mem_range.mp hc, hb, rfl, rfl⟩
    · exact ⟨hx, hy, r + 1, c, row', by simpa using hr, hc, hb, rfl, by omega⟩

end Sys2Proof.Machine
end

