-- ==== Sys2Proof/Laws/Exec.lean ====
section
/-! SUPPORT. What each instruction does, as one equation per instruction over the named updates; the memory
instructions over the shared operations, whose laws are in Laws/Ops.lean. Proofs rewrite with these and leave exec folded. -/

namespace Sys2Proof.Machine

section
variable (s : State) (x y : Reg) (kk : Byte) (nnn : Addr)

/-! ### Control transfer -/

theorem exec_ret_nil (h : s.stack = []) : exec .ret s = .fault (.emptyStack s) := by
  simp [exec, execRet, h, raise]

theorem exec_ret_cons {a : Word} {rest : List Word} (h : s.stack = a :: rest) :
    exec .ret s = .next ((s.setStack rest).setPc a) := by
  simp [exec, execRet, h]

theorem exec_jp : exec (.jp nnn) s = .next (s.setPc (addrWord nnn)) := rfl

theorem exec_call_full (h : s.params.stackDepth = some s.stack.length) :
    exec (.call nnn) s = .fault (.stackOverflow s) := by
  simp [exec, execCall, h, raise]

theorem exec_call (h : s.params.stackDepth ≠ some s.stack.length) :
    exec (.call nnn) s = .next ((s.setStack (s.pc :: s.stack)).setPc (addrWord nnn)) := by
  simp [exec, execCall, h]

theorem exec_seVxKk : exec (.seVxKk x kk) s = .next (s.setPc (if s.reg x == kk then s.pc + 2 else s.pc)) := rfl
theorem exec_sneVxKk : exec (.sneVxKk x kk) s = .next (s.setPc (if s.reg x != kk then s.pc + 2 else s.pc)) := rfl
theorem exec_seVxVy : exec (.seVxVy x y) s = .next (s.setPc (if s.reg x == s.reg y then s.pc + 2 else s.pc)) := rfl
theorem exec_sneVxVy : exec (.sneVxVy x y) s = .next (s.setPc (if s.reg x != s.reg y then s.pc + 2 else s.pc)) := rfl
theorem exec_sknp :
    exec (.sknp x) s = .next (s.setPc (if !pressed s.keys (s.reg x) then s.pc + 2 else s.pc)) := rfl

/-! ### Load, arithmetic, logic, shift, random -/

theorem exec_ldVxKk : exec (.ldVxKk x kk) s = .next (s.setReg x kk) := rfl
theorem exec_addVxKk : exec (.addVxKk x kk) s = .next (s.setReg x (s.reg x + kk)) := rfl
theorem exec_ldVxVy : exec (.ldVxVy x y) s = .next (s.setReg x (s.reg y)) := rfl
theorem exec_or : exec (.or x y) s = .next (s.setReg x (s.reg x ||| s.reg y)) := rfl
theorem exec_and : exec (.and x y) s = .next (s.setReg x (s.reg x &&& s.reg y)) := rfl
theorem exec_xor : exec (.xor x y) s = .next (s.setReg x (s.reg x ^^^ s.reg y)) := rfl
theorem exec_addVxVy : exec (.addVxVy x y) s =
    .next (writeResultAndFlag x (s.reg x + s.reg y) (carryOut (s.reg x) (s.reg y)) s) := rfl
theorem exec_sub : exec (.sub x y) s =
    .next (writeResultAndFlag x (s.reg x - s.reg y) (noBorrow (s.reg x) (s.reg y)) s) := rfl
theorem exec_subn : exec (.subn x y) s =
    .next (writeResultAndFlag x (s.reg y - s.reg x) (noBorrow (s.reg y) (s.reg x)) s) := rfl
theorem exec_shr : exec (.shr x y) s =
    .next ((s.setReg Reg.vf (flagByte (shiftedOutRight (s.reg x)))).setReg x (s.reg x >>> 1)) := rfl
theorem exec_shl : exec (.shl x y) s =
    .next ((s.setReg Reg.vf (flagByte (shiftedOutLeft (s.reg x)))).setReg x (s.reg x <<< 1)) := rfl
theorem exec_rnd : exec (.rnd x kk) s = .next (s.setReg x (s.randomByte &&& kk)) := rfl

/-- The two writes of `8xy4`, `8xy5`, `8xy7` (42_load_alu.md R163): one register update after the other, in the order of the
parameter. -/
theorem writeResultAndFlag_cases (res : Byte) (f : Bool) :
    (s.params.vfOrder = .flagThenResult ∧
      writeResultAndFlag x res f s = (s.setReg Reg.vf (flagByte f)).setReg x res) ∨
    (s.params.vfOrder = .resultThenFlag ∧
      writeResultAndFlag x res f s = (s.setReg x res).setReg Reg.vf (flagByte f)) := by
  unfold writeResultAndFlag
  cases h : s.params.vfOrder
  · exact .inl ⟨rfl, rfl⟩
  · exact .inr ⟨rfl, rfl⟩

/-! ### Index and memory -/

theorem exec_ldI : exec (.ldI nnn) s = .next (s.setI (addrWord nnn)) := rfl
theorem exec_addIVx : exec (.addIVx x) s = .next (s.setI (s.i + byteWord (s.reg x))) := rfl
theorem exec_ldFVx : exec (.ldFVx x) s = .next (s.setI (glyphAddr s.params.fontBase (s.reg x))) := rfl
theorem exec_ldBVx : exec (.ldBVx x) s = storeBytes s.i.toNat (bcd (s.reg x)) s := rfl

theorem exec_ldMIVx :
    exec (.ldMIVx x) s = storeBytes s.i.toNat (((List.finRange 16).take (x.val + 1)).map s.reg) s := by
  simp only [exec, execLdMIVx, regRange_zero, orRaise, State.base]

theorem exec_ldVxMI :
    exec (.ldVxMI x) s = loadRegs s.i.toNat ((List.finRange 16).take (x.val + 1)) s := by
  simp only [exec, execLdVxMI, regRange_zero, orRaise, State.base]

/-! ### Display -/

theorem exec_cls : exec .cls s = .next ((s.setDisp Display.clear).setScreen .changed) := rfl

theorem exec_drw {h : Nat} {rows : List Byte} (hr : s.mem.readSprite s.i.toNat h = .ok rows) :
    exec (.drw x y h) s =
      .next (((s.setDisp (blit (s.reg x).toNat (s.reg y).toNat rows s.disp).1).setReg Reg.vf
        (flagByte (blit (s.reg x).toNat (s.reg y).toNat rows s.disp).2)).setScreen .changed) := by
  simp only [exec, execDrw, State.base, hr, orRaise, State.setFlag_eq_setReg]

theorem exec_drw_overruns {h : Nat} (h0 : 0 < h) (hl : 4096 < s.i.toNat + h) :
    exec (.drw x y h) s = .fault (.outOfBounds (max s.i.toNat 4096) s) := by
  simp only [exec, execDrw, State.base, Memory.readSprite_overruns h0 hl, orRaise, raise]

/-! ### Timers -/

theorem exec_ldVxDt : exec (.ldVxDt x) s = .next (s.setReg x s.dt) := rfl
theorem exec_ldDtVx : exec (.ldDtVx x) s = .next (s.setDt (s.reg x)) := rfl
theorem exec_ldStVx : exec (.ldStVx x) s = .next (s.setSt (s.reg x)) := rfl

end

end Sys2Proof.Machine
end

