-- ==== Sys2Proof/Laws/Outcome.lean ====
section
/-! SUPPORT. How raising an error, a block store and a block load commute with a change of the parts they do not look at: the
inputs, and the parameter VF_ORDER_ARITH. -/

namespace Sys2Proof.Machine

section
variable (s : State) (o : VfOrder) (rb : Byte) (ks : BitVec 16)

@[simp] theorem State.withVfOrder_reg (r : Reg) : (s.withVfOrder o).reg r = s.reg r := rfl
@[simp] theorem State.withVfOrder_pc : (s.withVfOrder o).pc = s.pc := rfl
@[simp] theorem State.withVfOrder_i : (s.withVfOrder o).i = s.i := rfl
@[simp] theorem State.withVfOrder_stack : (s.withVfOrder o).stack = s.stack := rfl
@[simp] theorem State.withVfOrder_mem : (s.withVfOrder o).mem = s.mem := rfl
@[simp] theorem State.withVfOrder_disp : (s.withVfOrder o).disp = s.disp := rfl
@[simp] theorem State.withVfOrder_stackDepth : (s.withVfOrder o).params.stackDepth = s.params.stackDepth := rfl
@[simp] theorem State.withVfOrder_fontBase : (s.withVfOrder o).params.fontBase = s.params.fontBase := rfl

theorem raise_mapOutcome (g : State → State) (e : Error) : raise e (g s) = mapOutcome g (raise e s) := by
  cases e <;> rfl

theorem storeBytes_withInputs (a : Nat) (bytes : List Byte) :
    storeBytes a bytes (s.withInputs rb ks) = mapOutcome (fun t => t.withInputs rb ks) (storeBytes a bytes s) := by
  simp only [storeBytes, State.withInputs_mem]
  split
  · rfl
  · next e _ => cases e <;> rfl

theorem storeBytes_withVfOrder (a : Nat) (bytes : List Byte) :
    storeBytes a bytes (s.withVfOrder o) = mapOutcome (fun t => t.withVfOrder o) (storeBytes a bytes s) := by
  simp only [storeBytes, State.withVfOrder_mem]
  split
  · rfl
  · next e _ => cases e <;> rfl

theorem loadRegs_withInputs (base : Nat) (regs : List Reg) :
    loadRegs base regs (s.withInputs rb ks) = mapOutcome (fun t => t.withInputs rb ks) (loadRegs base regs s) := by
  induction regs generalizing s with
  | nil => rfl
  | cons k regs ih =>
    simp only [loadRegs, State.withInputs_mem]
    split
    · exact ih (s.setReg k _)
    · next e _ => cases e <;> rfl

theorem loadRegs_withVfOrder (base : Nat) (regs : List Reg) :
    loadRegs base regs (s.withVfOrder o) = mapOutcome (fun t => t.withVfOrder o) (loadRegs base regs s) := by
  induction regs generalizing s with
  | nil => rfl
  | cons k regs ih =>
    simp only [loadRegs, State.withVfOrder_mem]
    split
    · exact ih (s.setReg k _)
    · next e _ => cases e <;> rfl

/-- Writes of two different registers commute. -/
theorem State.setReg_comm {x y : Reg} (h : x ≠ y) (b c : Byte) :
    (s.setReg x b).setReg y c = (s.setReg y c).setReg x b := by
  simp only [State.setReg]
  congr 1
  exact Vector.set_comm _ _ fun e => h (Fin.ext e)

end

end Sys2Proof.Machine
end

