-- ==== Sys2Proof/Laws/PerInstr.lean ====
section
/-! SUPPORT. Laws proved per instruction. Family EncodeInOwnRow: the row of the opcode table that carries an instruction's id
selects the word the encoder writes for it (30_encoding.md R84). -/

namespace Sys2Proof.Laws.EncodeInOwnRow

/-- The row of the instruction's id selects its word. -/
def Statement (i : Instr) : Prop := ∃ r ∈ opcodeTable, r.id = i.rowId ∧ r.selects (encode i) = true

/-! One row selects every word of its format (the masks of R84). -/

theorem selects_formatA (id : String) (op : BitVec 4) (nnn : Addr) :
    OpcodeRow.selects ⟨id, formatA op 0, 0xF000⟩ (formatA op nnn) = true :=
  beq_iff_eq.mpr ((and_maskF000 _).trans (by rw [nib3_formatA]))

theorem selects_formatI (id : String) (op : BitVec 4) (x : Reg) (kk : Byte) :
    OpcodeRow.selects ⟨id, formatA op 0, 0xF000⟩ (formatI op x kk) = true :=
  beq_iff_eq.mpr ((and_maskF000 _).trans (by rw [nib3_formatI]))

theorem selects_formatR (id : String) (op : BitVec 4) (x y : Reg) (n : BitVec 4) :
    OpcodeRow.selects ⟨id, formatR op 0 0 n, 0xF00F⟩ (formatR op x y n) = true := by
  exact beq_iff_eq.mpr ((and_maskF00F _).trans (by rw [nib3_formatR, nib0_formatR]))

theorem selects_formatD (id : String) (op : BitVec 4) (x y : Reg) (n : BitVec 4) :
    OpcodeRow.selects ⟨id, formatA op 0, 0xF000⟩ (formatR op x y n) = true := by
  exact beq_iff_eq.mpr ((and_maskF000 _).trans (by rw [nib3_formatR]))

theorem selects_formatX (id : String) (op : BitVec 4) (x : Reg) (kk : Byte) :
    OpcodeRow.selects ⟨id, formatI op 0 kk, 0xF0FF⟩ (formatI op x kk) = true := by
  exact beq_iff_eq.mpr ((and_maskF0FF _).trans (by rw [nib3_formatI, lowByte_formatI]))

/-! One lemma per constructor. -/

theorem cls : Statement (.cls) :=
  ⟨⟨"CLS", 0x00E0, 0xFFFF⟩, by simp [opcodeTable, opcodeRowsLow, opcodeRowsAlu, opcodeRowsHigh], rfl, rfl⟩

theorem ret : Statement (.ret) :=
  ⟨⟨"RET", 0x00EE, 0xFFFF⟩, by simp [opcodeTable, opcodeRowsLow, opcodeRowsAlu, opcodeRowsHigh], rfl, rfl⟩

theorem jp (nnn : Addr) : Statement (.jp nnn) :=
  ⟨⟨"JP", 0x1000, 0xF000⟩, by simp [opcodeTable, opcodeRowsLow, opcodeRowsAlu, opcodeRowsHigh], rfl, selects_formatA _ _ _⟩

theorem call (nnn : Addr) : Statement (.call nnn) :=
  ⟨⟨"CALL", 0x2000, 0xF000⟩, by simp [opcodeTable, opcodeRowsLow, opcodeRowsAlu, opcodeRowsHigh], rfl, selects_formatA _ _ _⟩

theorem seVxKk (x : Reg) (kk : Byte) : Statement (.seVxKk x kk) :=
  ⟨⟨"SE_VX_KK", 0x3000, 0xF000⟩, by simp [opcodeTable, opcodeRowsLow, opcodeRowsAlu, opcodeRowsHigh], rfl, selects_formatI _ _ _ _⟩

theorem sneVxKk (x : Reg) (kk : Byte) : Statement (.sneVxKk x kk) :=
  ⟨⟨"SNE_VX_KK", 0x4000, 0xF000⟩, by simp [opcodeTable, opcodeRowsLow, opcodeRowsAlu, opcodeRowsHigh], rfl, selects_formatI _ _ _ _⟩

theorem seVxVy (x : Reg) (y : Reg) : Statement (.seVxVy x y) :=
  ⟨⟨"SE_VX_VY", 0x5000, 0xF00F⟩, by simp [opcodeTable, opcodeRowsLow, opcodeRowsAlu, opcodeRowsHigh], rfl, selects_formatR _ _ _ _ _⟩

theorem ldVxKk (x : Reg) (kk : Byte) : Statement (.ldVxKk x kk) :=
  ⟨⟨"LD_VX_KK", 0x6000, 0xF000⟩, by simp [opcodeTable, opcodeRowsLow, opcodeRowsAlu, opcodeRowsHigh], rfl, selects_formatI _ _ _ _⟩

theorem addVxKk (x : Reg) (kk : Byte) : Statement (.addVxKk x kk) :=
  ⟨⟨"ADD_VX_KK", 0x7000, 0xF000⟩, by simp [opcodeTable, opcodeRowsLow, opcodeRowsAlu, opcodeRowsHigh], rfl, selects_formatI _ _ _ _⟩

theorem ldVxVy (x : Reg) (y : Reg) : Statement (.ldVxVy x y) :=
  ⟨⟨"LD_VX_VY", 0x8000, 0xF00F⟩, by simp [opcodeTable, opcodeRowsLow, opcodeRowsAlu, opcodeRowsHigh], rfl, selects_formatR _ _ _ _ _⟩

theorem or (x : Reg) (y : Reg) : Statement (.or x y) :=
  ⟨⟨"OR", 0x8001, 0xF00F⟩, by simp [opcodeTable, opcodeRowsLow, opcodeRowsAlu, opcodeRowsHigh], rfl, selects_formatR _ _ _ _ _⟩

theorem and (x : Reg) (y : Reg) : Statement (.and x y) :=
  ⟨⟨"AND", 0x8002, 0xF00F⟩, by simp [opcodeTable, opcodeRowsLow, opcodeRowsAlu, opcodeRowsHigh], rfl, selects_formatR _ _ _ _ _⟩

theorem xor (x : Reg) (y : Reg) : Statement (.xor x y) :=
  ⟨⟨"XOR", 0x8003, 0xF00F⟩, by simp [opcodeTable, opcodeRowsLow, opcodeRowsAlu, opcodeRowsHigh], rfl, selects_formatR _ _ _ _ _⟩

theorem addVxVy (x : Reg) (y : Reg) : Statement (.addVxVy x y) :=
  ⟨⟨"ADD_VX_VY", 0x8004, 0xF00F⟩, by simp [opcodeTable, opcodeRowsLow, opcodeRowsAlu, opcodeRowsHigh], rfl, selects_formatR _ _ _ _ _⟩

theorem sub (x : Reg) (y : Reg) : Statement (.sub x y) :=
  ⟨⟨"SUB", 0x8005, 0xF00F⟩, by simp [opcodeTable, opcodeRowsLow, opcodeRowsAlu, opcodeRowsHigh], rfl, selects_formatR _ _ _ _ _⟩

theorem shr (x : Reg) (y : Reg) : Statement (.shr x y) :=
  ⟨⟨"SHR", 0x8006, 0xF00F⟩, by simp [opcodeTable, opcodeRowsLow, opcodeRowsAlu, opcodeRowsHigh], rfl, selects_formatR _ _ _ _ _⟩

theorem subn (x : Reg) (y : Reg) : Statement (.subn x y) :=
  ⟨⟨"SUBN", 0x8007, 0xF00F⟩, by simp [opcodeTable, opcodeRowsLow, opcodeRowsAlu, opcodeRowsHigh], rfl, selects_formatR _ _ _ _ _⟩

theorem shl (x : Reg) (y : Reg) : Statement (.shl x y) :=
  ⟨⟨"SHL", 0x800E, 0xF00F⟩, by simp [opcodeTable, opcodeRowsLow, opcodeRowsAlu, opcodeRowsHigh], rfl, selects_formatR _ _ _ _ _⟩

theorem sneVxVy (x : Reg) (y : Reg) : Statement (.sneVxVy x y) :=
  ⟨⟨"SNE_VX_VY", 0x9000, 0xF00F⟩, by simp [opcodeTable, opcodeRowsLow, opcodeRowsAlu, opcodeRowsHigh], rfl, selects_formatR _ _ _ _ _⟩

theorem ldI (nnn : Addr) : Statement (.ldI nnn) :=
  ⟨⟨"LD_I", 0xA000, 0xF000⟩, by simp [opcodeTable, opcodeRowsLow, opcodeRowsAlu, opcodeRowsHigh], rfl, selects_formatA _ _ _⟩

theorem rnd (x : Reg) (kk : Byte) : Statement (.rnd x kk) :=
  ⟨⟨"RND", 0xC000, 0xF000⟩, by simp [opcodeTable, opcodeRowsLow, opcodeRowsAlu, opcodeRowsHigh], rfl, selects_formatI _ _ _ _⟩

theorem drw (x : Reg) (y : Reg) (h : Nat) : Statement (.drw x y h) :=
  ⟨⟨"DRW", 0xD000, 0xF000⟩, by simp [opcodeTable, opcodeRowsLow, opcodeRowsAlu, opcodeRowsHigh], rfl, selects_formatD _ _ _ _ _⟩

theorem sknp (x : Reg) : Statement (.sknp x) :=
  ⟨⟨"SKNP", 0xE0A1, 0xF0FF⟩, by simp [opcodeTable, opcodeRowsLow, opcodeRowsAlu, opcodeRowsHigh], rfl, selects_formatX _ _ _ _⟩

theorem ldVxDt (x : Reg) : Statement (.ldVxDt x) :=
  ⟨⟨"LD_VX_DT", 0xF007, 0xF0FF⟩, by simp [opcodeTable, opcodeRowsLow, opcodeRowsAlu, opcodeRowsHigh], rfl, selects_formatX _ _ _ _⟩

theorem ldDtVx (x : Reg) : Statement (.ldDtVx x) :=
  ⟨⟨"LD_DT_VX", 0xF015, 0xF0FF⟩, by simp [opcodeTable, opcodeRowsLow, opcodeRowsAlu, opcodeRowsHigh], rfl, selects_formatX _ _ _ _⟩

theorem ldStVx (x : Reg) : Statement (.ldStVx x) :=
  ⟨⟨"LD_ST_VX", 0xF018, 0xF0FF⟩, by simp [opcodeTable, opcodeRowsLow, opcodeRowsAlu, opcodeRowsHigh], rfl, selects_formatX _ _ _ _⟩

theorem addIVx (x : Reg) : Statement (.addIVx x) :=
  ⟨⟨"ADD_I_VX", 0xF01E, 0xF0FF⟩, by simp [opcodeTable, opcodeRowsLow, opcodeRowsAlu, opcodeRowsHigh], rfl, selects_formatX _ _ _ _⟩

theorem ldFVx (x : Reg) : Statement (.ldFVx x) :=
  ⟨⟨"LD_F_VX", 0xF029, 0xF0FF⟩, by simp [opcodeTable, opcodeRowsLow, opcodeRowsAlu, opcodeRowsHigh], rfl, selects_formatX _ _ _ _⟩

theorem ldBVx (x : Reg) : Statement (.ldBVx x) :=
  ⟨⟨"LD_B_VX", 0xF033, 0xF0FF⟩, by simp [opcodeTable, opcodeRowsLow, opcodeRowsAlu, opcodeRowsHigh], rfl, selects_formatX _ _ _ _⟩

theorem ldMIVx (x : Reg) : Statement (.ldMIVx x) :=
  ⟨⟨"LD_MI_VX", 0xF055, 0xF0FF⟩, by simp [opcodeTable, opcodeRowsLow, opcodeRowsAlu, opcodeRowsHigh], rfl, selects_formatX _ _ _ _⟩

theorem ldVxMI (x : Reg) : Statement (.ldVxMI x) :=
  ⟨⟨"LD_VX_MI", 0xF065, 0xF0FF⟩, by simp [opcodeTable, opcodeRowsLow, opcodeRowsAlu, opcodeRowsHigh], rfl, selects_formatX _ _ _ _⟩

end Sys2Proof.Laws.EncodeInOwnRow
end

