-- ==== Sys2Proof/Tests/Slice0.lean ====
section
/-! SUPPORT. Tests of the model. Expected values come from the spec: the encodings of 30_encoding.md R84 written out, and the
vectors of 95_test_vectors.md (T<part> in a comment). After them, one witness for the hypotheses of each obligation. -/

namespace Sys2Proof.Machine.Tests

/-! ### Helpers -/

/-- The reset state with some registers set. -/
def regs (l : List (Reg × Byte)) : State := l.foldl (fun s p => s.setReg p.1 p.2) State.reset

/-- Some bytes at an address. -/
def State.bytesAt (s : State) (a : Nat) (l : List Byte) : State := s.setMem (s.mem.writeBytes a l).1

/-- Some pixels on. -/
def State.pixelsOn (s : State) (l : List (Nat × Nat)) : State :=
  s.setDisp (l.foldl (fun d p => d.flip p.1 p.2) s.disp)

/-- One STEP of the machine with the word at `PC` and given inputs. -/
def stepWith (rb : Byte) (ks : BitVec 16) (w : Word) (s : State) : Outcome :=
  step ((s.putWord s.pc.toNat w).setAgenda [.step rb ks])

/-- One STEP with both inputs 0. -/
def run1 (w : Word) (s : State) : Outcome := stepWith 0 0 w s

/-- The outcome is a next state that passes a check. -/
def nextWith (o : Outcome) (p : State → Bool) : Bool :=
  match o with
  | .next t => p t
  | .fault _ => false
  | .refused _ => false

/-- The outcome is an error of the given kind and info, and the state it left passes a check. -/
def faultWith (o : Outcome) (e : Error) (p : State → Bool) : Bool :=
  match o with
  | .next _ => false
  | .fault f => decide (f.error = e) && p f.left
  | .refused _ => false

/-- A byte of memory; 0 where the read fails. -/
def byteAt (s : State) (a : Nat) : Byte :=
  match s.mem.read a with
  | .ok b => b
  | .error _ => 0

/-- The pixels that are on, row by row, among the given ones. -/
def lit (s : State) (l : List (Nat × Nat)) : List (Nat × Nat) := l.filter fun p => s.disp.pixel p.1 p.2

/-! ### WellFormed: each check refuses an ill-formed term -/

theorem test_wellFormed_refuses_height_16 : (Instr.drw 0 0 16).wellFormed = false := by decide
theorem test_wellFormed_accepts_height_15 : (Instr.drw 0 0 15).wellFormed = true := by decide

/-! ### Decode: every constructor by a word written out from R84, family by family -/

theorem test_decode_family_0 : decode 0x00E0 = .ok .cls ∧ decode 0x00EE = .ok .ret := by decide
theorem test_decode_jp : decode 0x1ABC = .ok (.jp 0xABC) := by decide
theorem test_decode_call : decode 0x2DEF = .ok (.call 0xDEF) := by decide
theorem test_decode_seVxKk : decode 0x37C1 = .ok (.seVxKk 7 0xC1) := by decide
theorem test_decode_sneVxKk : decode 0x48C2 = .ok (.sneVxKk 8 0xC2) := by decide
theorem test_decode_seVxVy : decode 0x5A30 = .ok (.seVxVy 0xA 3) := by decide
theorem test_decode_ldVxKk : decode 0x6B9D = .ok (.ldVxKk 0xB 0x9D) := by decide
theorem test_decode_addVxKk : decode 0x7C81 = .ok (.addVxKk 0xC 0x81) := by decide

theorem test_decode_family_8_low : decode 0x8120 = .ok (.ldVxVy 1 2) ∧ decode 0x8341 = .ok (.or 3 4) ∧
    decode 0x8562 = .ok (.and 5 6) ∧ decode 0x8783 = .ok (.xor 7 8) := by decide

theorem test_decode_family_8_high : decode 0x89A4 = .ok (.addVxVy 9 0xA) ∧ decode 0x8BC5 = .ok (.sub 0xB 0xC) ∧
    decode 0x8DE6 = .ok (.shr 0xD 0xE) ∧ decode 0x8F07 = .ok (.subn 0xF 0) ∧ decode 0x82FE = .ok (.shl 2 0xF) := by decide

theorem test_decode_sneVxVy : decode 0x9E10 = .ok (.sneVxVy 0xE 1) := by decide
theorem test_decode_ldI : decode 0xA801 = .ok (.ldI 0x801) := by decide
theorem test_decode_rnd : decode 0xC47E = .ok (.rnd 4 0x7E) := by decide
theorem test_decode_drw : decode 0xD5AF = .ok (.drw 5 0xA 15) := by decide
theorem test_decode_sknp : decode 0xEDA1 = .ok (.sknp 0xD) := by decide

theorem test_decode_family_F_low : decode 0xF107 = .ok (.ldVxDt 1) ∧ decode 0xF215 = .ok (.ldDtVx 2) ∧
    decode 0xF318 = .ok (.ldStVx 3) ∧ decode 0xF41E = .ok (.addIVx 4) := by decide

theorem test_decode_family_F_high : decode 0xF529 = .ok (.ldFVx 5) ∧ decode 0xF633 = .ok (.ldBVx 6) ∧
    decode 0xF755 = .ok (.ldMIVx 7) ∧ decode 0xF865 = .ok (.ldVxMI 8) := by decide

/-- T2.1: near misses of every family are rejected with the raw word. -/
theorem test_decode_rejects : ([0x0000, 0x0123, 0x00E1, 0x00EF, 0x5121, 0x8128, 0x812F, 0x912F, 0xB300, 0xE19E, 0xF10A,
    0xF100, 0xFFFF].all fun w : Word => decide (decode w = .error (.unrecognizedInstruction w))) = true := by decide

theorem test_decodeTableWord : decodeTableWord 16 0xD123 = some (.drw 1 2 3) ∧ decodeTableWord 16 0xB300 = none := by decide

/-! ### Utilities (T1 S9) -/

theorem test_bit : bit 0x80 7 = .ok true ∧ bit 0x80 0 = .ok false ∧ bit 0x01 0 = .ok true ∧
    bit 0x01 8 = .error .invalidBitIndex := by decide

theorem test_regRange : regRange 0 2 = .ok [0, 1, 2] ∧ regRange 5 5 = .ok [5] ∧
    regRange 3 2 = .error .invalidRegisterRange := by decide

/-! ### The step (T2.1) -/

theorem test_step_odd_pc : nextWith (run1 0x6A05 (State.reset.setPc 0x201)) (fun t =>
    t.reg 0xA == 0x05 && t.pc == 0x203) = true := by decide

theorem test_step_last_fetch : nextWith (run1 0x6A05 (State.reset.setPc 0xFFE)) (fun t =>
    t.pc == 0x1000) = true := by decide

theorem test_step_fetch_straddles_end : faultWith (step ((State.reset.setPc 0xFFF).setAgenda [.step 0 0]))
    (.outOfBounds 4096) (fun t => t.pc == 0xFFF) = true := by decide

/-- From reset with nothing placed the word at PROGRAM_BASE is 0x0000, which is illegal. -/
theorem test_step_from_reset : faultWith (step State.reset) (.unrecognizedInstruction 0) (fun t => t.pc == 0x200) = true := by
  decide

theorem test_withFetchWord : nextWith (step (State.reset.withFetchWord 16 0x6A05)) (fun t =>
    t.reg 0xA == 0x05 && t.pc == 0x202) = true := by decide

theorem test_illegal_word_changes_nothing : faultWith (run1 0xB300 State.reset) (.unrecognizedInstruction 0xB300)
    (fun t => t.pc == 0x200) = true := by decide

/-! ### Control transfer (T2.2) -/

theorem test_ret : nextWith (run1 0x00EE (State.reset.setStack [0x206, 0xABC])) (fun t =>
    t.pc == 0x206 && t.stack == [0xABC]) = true := by decide
theorem test_ret_empty : faultWith (run1 0x00EE State.reset) .emptyStack (fun t => t.pc == 0x202) = true := by decide

theorem test_jp : nextWith (run1 0x1FFF State.reset) (fun t => t.pc == 0xFFF && t.stack == []) = true := by decide

theorem test_call : nextWith (run1 0x2300 (State.reset.setStack [0xABC])) (fun t =>
    t.pc == 0x300 && t.stack == [0x202, 0xABC]) = true := by decide
theorem test_call_overflow : faultWith
    (run1 0x2300 { State.reset with params := { Config.params with stackDepth := some 2 }, stack := [0xDEF, 0xABC] })
    .stackOverflow (fun t => t.pc == 0x202 && t.stack == [0xDEF, 0xABC]) = true := by decide

theorem test_seVxKk : nextWith (run1 0x332A (regs [(3, 0x2A)])) (fun t => t.pc == 0x204) = true ∧
    nextWith (run1 0x332A (regs [(3, 0x2B)])) (fun t => t.pc == 0x202) = true := by decide
theorem test_sneVxKk : nextWith (run1 0x432A (regs [(3, 0x2A)])) (fun t => t.pc == 0x202) = true ∧
    nextWith (run1 0x432A (regs [(3, 0)])) (fun t => t.pc == 0x204) = true := by decide
theorem test_seVxVy : nextWith (run1 0x5120 (regs [(1, 7), (2, 7)])) (fun t => t.pc == 0x204) = true ∧
    nextWith (run1 0x5120 (regs [(1, 7), (2, 8)])) (fun t => t.pc == 0x202) = true := by decide
theorem test_sneVxVy : nextWith (run1 0x9120 (regs [(1, 7), (2, 8)])) (fun t => t.pc == 0x204) = true ∧
    nextWith (run1 0x9110 (regs [(1, 7)])) (fun t => t.pc == 0x202) = true := by decide
theorem test_sknp : nextWith (stepWith 0 0x0400 0xE5A1 (regs [(5, 0x0A)])) (fun t => t.pc == 0x202) = true ∧
    nextWith (stepWith 0 0xFBFF 0xE5A1 (regs [(5, 0x0A)])) (fun t => t.pc == 0x204) = true := by decide
theorem test_sknp_no_such_key : nextWith (stepWith 0 0xFFFF 0xE5A1 (regs [(5, 0x1A)])) (fun t =>
    t.pc == 0x204) = true := by decide

/-! ### Load, arithmetic, logic, shift, random (T2.3) -/

theorem test_ldVxKk : nextWith (run1 0x6F55 State.reset) (fun t => t.reg 15 == 0x55 && t.pc == 0x202) = true := by decide
theorem test_addVxKk : nextWith (run1 0x71FF (regs [(1, 5), (15, 1)])) (fun t =>
    t.reg 1 == 4 && t.reg 15 == 1) = true := by decide
theorem test_ldVxVy : nextWith (run1 0x8120 (regs [(2, 0x5A)])) (fun t => t.reg 1 == 0x5A) = true := by decide
theorem test_or : nextWith (run1 0x8121 (regs [(1, 0xF0), (2, 0x0F), (15, 1)])) (fun t =>
    t.reg 1 == 0xFF && t.reg 15 == 1) = true := by decide
theorem test_and : nextWith (run1 0x8122 (regs [(1, 0xF0), (2, 0x3C)])) (fun t => t.reg 1 == 0x30) = true := by decide
theorem test_xor : nextWith (run1 0x8123 (regs [(1, 0xF0), (2, 0x3C)])) (fun t => t.reg 1 == 0xCC) = true := by decide

theorem test_addVxVy : nextWith (run1 0x8124 (regs [(1, 0xFF), (2, 0xFF)])) (fun t =>
    t.reg 1 == 0xFE && t.reg 15 == 1) = true := by decide
theorem test_addVxVy_operand_vf : nextWith (run1 0x81F4 (regs [(1, 0x10), (15, 5)])) (fun t =>
    t.reg 1 == 0x15 && t.reg 15 == 0) = true := by decide
theorem test_sub : nextWith (run1 0x8125 (regs [(1, 1), (2, 2)])) (fun t => t.reg 1 == 0xFF && t.reg 15 == 0) = true ∧
    nextWith (run1 0x8125 (regs [(1, 5), (2, 5)])) (fun t => t.reg 1 == 0 && t.reg 15 == 1) = true := by decide
theorem test_subn : nextWith (run1 0x8127 (regs [(1, 1), (2, 3)])) (fun t => t.reg 1 == 2 && t.reg 15 == 1) = true ∧
    nextWith (run1 0x8127 (regs [(1, 0xFF)])) (fun t => t.reg 1 == 1 && t.reg 15 == 0) = true := by decide
theorem test_shr : nextWith (run1 0x8126 (regs [(1, 5), (2, 0xF0)])) (fun t =>
    t.reg 1 == 2 && t.reg 2 == 0xF0 && t.reg 15 == 1) = true := by decide
theorem test_shr_vf : nextWith (run1 0x8F06 (regs [(15, 3)])) (fun t => t.reg 15 == 1) = true := by decide
theorem test_shl : nextWith (run1 0x810E (regs [(1, 0x81)])) (fun t => t.reg 1 == 2 && t.reg 15 == 1) = true := by decide
theorem test_shl_vf : nextWith (run1 0x8F0E (regs [(15, 0x81)])) (fun t => t.reg 15 == 2) = true := by decide

/-- Destination VF: the default order leaves the result, the other the flag. -/
theorem test_vf_order : nextWith (run1 0x8F25 (regs [(15, 3), (2, 5)])) (fun t => t.reg 15 == 0xFE) = true ∧
    nextWith (run1 0x8F25 ((regs [(15, 3), (2, 5)]).withVfOrder .resultThenFlag)) (fun t => t.reg 15 == 0) = true := by
  decide

theorem test_rnd : nextWith (stepWith 0xA7 0 0xC30F State.reset) (fun t => t.reg 3 == 0x07) = true := by decide

/-! ### Index and memory (T2.4) -/

theorem test_ldI : nextWith (run1 0xAFFF State.reset) (fun t => t.i == 0xFFF) = true := by decide
theorem test_addIVx : nextWith (run1 0xF21E ((regs [(2, 0xFF)]).setI 0xFF80)) (fun t =>
    t.i == 0x007F && t.reg 15 == 0) = true := by decide
theorem test_ldFVx : nextWith (run1 0xF029 (regs [(0, 0xFF)])) (fun t => t.i == 0x04FB) = true := by decide

theorem test_ldBVx : nextWith (run1 0xF333 ((regs [(3, 0xFE)]).setI 0xFFD)) (fun t =>
    byteAt t 0xFFD == 2 && byteAt t 0xFFE == 5 && byteAt t 0xFFF == 4 && t.i == 0xFFD) = true := by decide
theorem test_ldBVx_overrun : faultWith (run1 0xF333 ((regs [(3, 0xFE)]).setI 0xFFE)) (.outOfBounds 4096) (fun t =>
    byteAt t 0xFFE == 2 && byteAt t 0xFFF == 5 && t.pc == 0x202) = true := by decide

theorem test_ldMIVx : nextWith (run1 0xF255 ((regs [(0, 0x11), (1, 0x22), (2, 0x33), (3, 0x44)]).setI 0x300)) (fun t =>
    byteAt t 0x300 == 0x11 && byteAt t 0x302 == 0x33 && byteAt t 0x303 == 0 && t.i == 0x300) = true := by decide
theorem test_ldMIVx_overrun : faultWith (run1 0xFF55 ((regs [(0, 1), (14, 0x0F), (15, 0x10)]).setI 0xFF1))
    (.outOfBounds 4096) (fun t => byteAt t 0xFF1 == 1 && byteAt t 0xFFF == 0x0F) = true := by decide

theorem test_ldVxMI : nextWith (run1 0xF265 (State.bytesAt ((regs [(3, 0x99)]).setI 0x300) 0x300 [0x11, 0x22, 0x33, 0x44]))
    (fun t => t.reg 0 == 0x11 && t.reg 2 == 0x33 && t.reg 3 == 0x99 && t.i == 0x300) = true := by decide
theorem test_ldVxMI_overrun : faultWith (run1 0xF165 (State.bytesAt ((regs [(0, 1), (1, 2)]).setI 0xFFF) 0xFFF [0x5A]))
    (.outOfBounds 4096) (fun t => t.reg 0 == 0x5A && t.reg 1 == 2 && t.pc == 0x202) = true := by decide

/-! ### Display (T2.5) -/

theorem test_cls : nextWith (run1 0x00E0 (State.pixelsOn (regs [(15, 1)]) [(2, 1), (40, 20)])) (fun t =>
    lit t [(2, 1), (40, 20)] == [] && t.reg 15 == 1 && t.screen == .changed) = true := by decide

/-- Clipped at the right edge: columns 64 to 67 are dropped. -/
theorem test_drw_clips : nextWith (run1 0xD121 (State.bytesAt ((regs [(1, 60)]).setI 0x300) 0x300 [0xFF])) (fun t =>
    lit t [(59, 0), (60, 0), (63, 0), (0, 0), (3, 0), (0, 1)] == [(60, 0), (63, 0)] && t.reg 15 == 0) = true := by decide
theorem test_drw_collision : nextWith (run1 0xD121 (State.pixelsOn (State.bytesAt ((regs [(1, 1)]).setI 0x300) 0x300 [0xC0])
    [(0, 0), (1, 0)])) (fun t =>
    lit t [(0, 0), (1, 0), (2, 0), (3, 0)] == [(0, 0), (2, 0)] && t.reg 15 == 1 && t.screen == .changed) = true := by decide

/-! ### Timers and host operations (T2.6, T2.7) -/

theorem test_ldVxDt : nextWith (run1 0xFF07 (State.reset.setDt 9)) (fun t => t.reg 15 == 9 && t.dt == 9) = true := by decide
theorem test_ldDtVx : nextWith (run1 0xF115 (regs [(1, 0x3C)])) (fun t => t.dt == 0x3C && t.st == 0) = true := by decide
theorem test_ldStVx : nextWith (run1 0xF118 (regs [(1, 5)])) (fun t =>
    t.st == 5 && t.dt == 0 && t.soundActive) = true := by decide

theorem test_tick : nextWith (perform .tick ((State.reset.setDt 3).setSt 1)) (fun t => t.dt == 2 && t.st == 0) = true ∧
    nextWith (perform .tick State.reset) (fun t => t.dt == 0 && t.st == 0) = true := by decide

theorem test_loadFont : nextWith (perform (.loadFont Config.glyphTable) State.reset) (fun t =>
    byteAt t 0x000 == 0xF0 && byteAt t 0x023 == 0xF0 && byteAt t 0x024 == 0x10 && byteAt t 0x04F == 0x80) = true := by decide

theorem test_loadProgram_initPc : nextWith (perform (.loadProgram [0x60, 0x05]) (State.reset.setPc 0x345)) (fun t =>
    byteAt t 0x200 == 0x60 && byteAt t 0x201 == 0x05 && t.pc == 0x345 &&
    nextWith (perform .initPc t) (fun u => u.pc == 0x200)) = true := by decide

theorem test_flatView : (State.pixelsOn State.reset [(60, 30)]).flatView 1980 = true := by decide

/-! ### Witnesses: for each obligation with hypotheses, states and operands that meet them, clause by clause -/

/-- A state with one word in memory, where `PC` is. -/
def atPc (s : State) (w : Word) : State := s.putWord s.pc.toNat w

/-- The state with other parameters. -/
def withParams (s : State) (p : Params) : State := { s with params := p }

/-- The word at `PC` decodes to the instruction and the STEP completes. -/
def completes (s : State) (w : Word) (i : Instr) : Bool :=
  decide (fetch (atPc s w) = .ok w) && decide (decode w = .ok i) && nextWith (stepOp 0 0 (atPc s w)) fun _ => true

/-- The word at `PC` decodes to the instruction and the STEP ends in an error. -/
def errs (s : State) (w : Word) (i : Instr) : Bool :=
  decide (fetch (atPc s w) = .ok w) && decide (decode w = .ok i) && !nextWith (stepOp 0 0 (atPc s w)) fun _ => true

theorem test_witness_DecodeOfEncodeIsIdentity : (Instr.drw 15 15 15).wellFormed = true ∧ Instr.ret.wellFormed = true := by
  decide

theorem test_witness_EncodeOfDecodeIsIdentity : decode 0xFF65 = .ok (.ldVxMI 15) := by decide

theorem test_witness_DecodeFollowsOpcodeTable : decode 0x8F0E = .ok (.shl 15 0) ∧
    opcodeTable.any (fun r => r.selects 0x8F0E) = true := by decide

theorem test_witness_OpcodeRowsAreDisjoint : (opcodeTable.filter fun r => r.selects 0x00EE).length = 1 := by decide

theorem test_witness_IllegalWordsAreRejected : illegalWord 0x00EF = true ∧ illegalWord 0x00EE = false := by decide

theorem test_witness_ByteWriteThenRead : Memory.wf [(0, 7), (4095, 1)] ∧ 4095 < 4096 ∧ 4096 ≤ 4096 := by decide

theorem test_witness_WordReadIsBigEndian : Memory.read16 [(4094, 0xA2), (4095, 0x2A)] 4094 = .ok 0xA22A ∧
    Memory.read16 [] 4095 = .error (.outOfBounds 4096) ∧ Memory.read16 [] 4096 = .error (.outOfBounds 4096) := by decide

/-- A bulk write whose second byte has no place: the byte before it, an address below and one above. -/
theorem test_witness_BulkWriteKeepsBytesBeforeFailure : Memory.wf [] ∧ ([1, 2] : List Byte)[0]? = some 1 ∧
    4095 + 0 < 4096 ∧ 4094 < 4095 ∧ 4095 + ([1, 2] : List Byte).length ≤ 4097 := by decide

theorem test_witness_SpriteReadIsWholeBeforeDrawing : (State.reset.setI 0x2000).i.toNat = 8192 ∧
    (State.reset.setI 0xFF1).i.toNat + 15 ≤ 4096 ∧ 4096 < (State.reset.setI 0xFF2).i.toNat + 15 := by decide

theorem test_witness_StepRunsTheDecodedInstruction :
    fetch (atPc (State.reset.setPc 4094) 0x6A05) = .ok 0x6A05 ∧ decode 0x6A05 = .ok (.ldVxKk 10 5) ∧
    (atPc (State.reset.setPc 4094) 0x6A05).agenda = [] ∧
    ((atPc (State.reset.setPc 4094) 0x6A05).setAgenda [.step 1 2, .tick]).agenda = .step 1 2 :: [.tick] := by decide

theorem test_witness_FailedFetchChangesNothing : (State.reset.setPc 4095).pc.toNat = 4095 ∧
    4096 ≤ (State.reset.setPc 4096).pc.toNat ∧ (State.reset.setPc 4094).pc.toNat < 4095 := by decide

theorem test_witness_FailedDecodeChangesNothing : fetch State.reset = .ok 0 ∧ illegalWord 0 = true := by decide

theorem test_witness_ProgramCounterChanges_errors : fetch (State.reset.setPc 4095) = .error (.outOfBounds 4096) ∧
    (fetch State.reset = .ok 0 ∧ decode 0 = .error (.unrecognizedInstruction 0)) ∧
    errs State.reset 0x00EE .ret = true := by decide

theorem test_witness_ProgramCounterChanges_next : completes State.reset 0x1FFF (.jp 0xFFF) = true ∧
    completes State.reset 0x2300 (.call 0x300) = true ∧ completes (State.reset.setStack [5]) 0x00EE .ret = true ∧
    (completes State.reset 0x3100 (.seVxKk 1 0) = true ∧ skips (beginExecute 0 0 State.reset) (.seVxKk 1 0) = true) ∧
    (completes State.reset 0x3101 (.seVxKk 1 1) = true ∧ skips (beginExecute 0 0 State.reset) (.seVxKk 1 1) = false) := by
  decide

theorem test_witness_ProgramCounterChanges_host : (∃ t, stateAfter (perform .initPc State.reset) = some t) ∧
    (∃ t, stateAfter (perform .reset State.reset) = some t) ∧ (∃ t, stateAfter (perform .tick State.reset) = some t) ∧
    (∃ t, stateAfter (perform (.loadProgram [1]) State.reset) = some t) :=
  ⟨⟨_, rfl⟩, ⟨_, rfl⟩, ⟨_, rfl⟩, ⟨_, rfl⟩⟩

theorem test_witness_ScreenChangedExactlyForDisplayInstructions : completes State.reset 0x00E0 .cls = true ∧
    completes State.reset 0xD120 (.drw 1 2 0) = true ∧ completes State.reset 0xA300 (.ldI 0x300) = true := by decide

theorem test_witness_RetPopsIntoPc : (State.reset.setStack [0x206]).stack = 0x206 :: [] ∧ State.reset.stack = [] := by decide

theorem test_witness_JumpSetsPc : (0x200 : Addr).toNat = State.reset.pc.toNat ∧
    nextWith (exec (.jp 0xFFF) State.reset) (fun t => decide (fetch t = .error (.outOfBounds 4096))) = true := by decide

theorem test_witness_CallPushesAdvancedPc :
    (withParams (State.reset.setStack [1]) { Config.params with stackDepth := some 2 }).params.stackDepth ≠ some 1 ∧
    (withParams (State.reset.setStack [1, 3]) { Config.params with stackDepth := some 2 }).params.stackDepth = some 2 ∧
    State.reset.params.stackDepth ≠ some State.reset.stack.length := by decide

theorem test_witness_ReturnComesBackAfterCall : ∃ t u : State, exec (.call 0x300) State.reset = .next t ∧ t.stack = [0x200] ∧
    u.stack = t.stack ∧ u.pc = 0x345 :=
  ⟨(State.reset.push 0x200).setPc 0x300, (State.reset.setStack [0x200]).setPc 0x345, by rfl, rfl, rfl, rfl⟩

theorem test_witness_SkipIfKeyNotPressed : 15 < ((regs [(1, 16)]).reg 1).toNat ∧ ((regs [(1, 15)]).reg 1).toNat ≤ 15 := by
  decide

/-- For AddRegisterSetsCarry, SubtractSetsNoBorrow and (its first part) ShiftsSetTheBitShiftedOut. -/
theorem test_witness_AddSubtractShift : (0xE : Reg) ≠ Reg.vf ∧ State.reset.params.vfOrder = .flagThenResult ∧
    (State.reset.withVfOrder .resultThenFlag).params.vfOrder = .resultThenFlag := by decide

theorem test_witness_VfOrderMattersOnlyForVfDestination : ∀ y, Instr.sub 0xE 0xF ≠ .addVxVy Reg.vf y ∧
    Instr.sub 0xE 0xF ≠ .sub Reg.vf y ∧ Instr.sub 0xE 0xF ≠ .subn Reg.vf y := by decide

theorem test_witness_BcdStoresDigits : (State.reset.setI 4093).mem.wf ∧ (State.reset.setI 4093).i.toNat + 2 < 4096 ∧
    4096 ≤ (State.reset.setI 4094).i.toNat + 2 := by decide

/-- For DumpStoresRegisterBlock and LoadReadsRegisterBlock, with `x = 1`. -/
theorem test_witness_RegisterBlock : State.reset.mem.wf ∧ (State.reset.setI 4094).i.toNat + (1 : Reg).val < 4096 ∧
    4096 ≤ (State.reset.setI 4095).i.toNat + (1 : Reg).val ∧ (1 : Reg) ≤ 1 ∧ (1 : Reg) < 2 := by decide

theorem test_witness_LoadAfterDumpRestores : ∃ t r : State, exec (.ldMIVx 1) ((regs [(1, 7)]).setI 0x300) = .next t ∧
    exec (.ldVxMI 1) (t.setReg 1 9) = .next r ∧ (t.setReg 1 9).mem = t.mem ∧
    (t.setReg 1 9).i = ((regs [(1, 7)]).setI 0x300).i :=
  ⟨_, _, rfl, rfl, rfl, rfl⟩

theorem test_witness_StoreIntoCodeIsFetched : ∃ t, exec (.ldMIVx 1) ((regs [(0, 0x6A), (1, 5)]).setI 0x200) = .next t ∧
    ((regs [(0, 0x6A), (1, 5)]).setI 0x200).mem.wf ∧
    ((regs [(0, 0x6A), (1, 5)]).setI 0x200).i = ((regs [(0, 0x6A), (1, 5)]).setI 0x200).pc ∧ 1 ≤ (1 : Reg).val :=
  ⟨_, rfl, by decide, by decide, by decide⟩

/-- For BlitFlipsVisitedPixels and BlitTwiceIsIdentity: the corner pixel is visited, one beyond the edge is not. -/
theorem test_witness_Blit : Visited 56 31 [0x01] 63 31 ∧ ¬ Visited 60 0 [0xFF] 64 0 :=
  ⟨⟨by decide, by decide, 0, 7, 0x01, rfl, by decide, by decide, rfl, rfl⟩, fun h => absurd h.1 (by decide)⟩

/-- For DrawBlitsSpriteAndSetsCollision: a visited pixel on; all visited pixels off; the last place a sprite fits. -/
theorem test_witness_DrawBlitsSpriteAndSetsCollision :
    (Visited 0 0 [0x80] 0 0 ∧ (State.pixelsOn State.reset [(0, 0)]).disp.pixel 0 0 = true) ∧
    (∀ px py, Visited 0 0 [0x00] px py → State.reset.disp.pixel px py = false) ∧
    (State.reset.setI 0xFF1).i.toNat + 15 ≤ 4096 := by
  refine ⟨⟨⟨by decide, by decide, 0, 0, 0x80, rfl, by decide, by decide, rfl, rfl⟩, by decide⟩, ?_, by decide⟩
  rintro px py ⟨-, -, r, c, row, hr, -, hb, -⟩
  cases r with
  | zero => cases hr; simp at hb
  | succ r => simp at hr

theorem test_witness_EmptyOrOffScreenDrawChangesNoPixel : ((State.reset.setI 0xFFF).i.toNat + 1 ≤ 4096 ∧
    64 ≤ ((regs [(1, 64)]).reg 1).toNat) ∧ 32 ≤ ((regs [(2, 32)]).reg 2).toNat := by decide

/-- With the table at the very end of memory: an address below it and one above. -/
theorem test_witness_LoadFontReproducesTable :
    (withParams State.reset { Config.params with fontBase := 4016 }).mem.wf ∧
    (withParams State.reset { Config.params with fontBase := 4016 }).params.wf ∧
    4015 < (withParams State.reset { Config.params with fontBase := 4016 }).params.fontBase.toNat ∧
    (withParams State.reset { Config.params with fontBase := 4016 }).params.fontBase.toNat + 80 ≤ 4096 := by decide

theorem test_witness_LoadProgramStoresImage :
    (withParams State.reset { Config.params with programBase := 4094 }).mem.wf ∧
    (withParams State.reset { Config.params with programBase := 4094 }).params.programBase.toNat + 2 ≤ 4096 ∧
    4096 < (withParams State.reset { Config.params with programBase := 4094 }).params.programBase.toNat + 3 := by decide

theorem test_witness_BootLoadsProgramAndFont : State.reset.params.wf ∧
    State.reset.params.programBase.toNat + ([0x12, 0x00] : List Byte).length ≤ 4096 ∧
    State.reset.params.fontBase.toNat + 79 < State.reset.params.programBase.toNat ∧
    ([0x12, 0x00] : List Byte)[1]? = some 0x00 := by decide

/-- The reset state, written so that each part is evaluated on its own. -/
theorem test_reset_meets_invariant : State.reset.Inv := by
  refine ⟨by decide, ?_, ?_, ?_, ?_⟩
  · decide
  · intro a h
    cases h
  · decide
  · decide

theorem test_witness_StepKeepsInvariant : (State.reset.setAgenda [.tick]).Inv ∧
    ∃ t, step (State.reset.setAgenda [.tick]) = .next t :=
  ⟨test_reset_meets_invariant, _, rfl⟩

theorem test_witness_FaultLeavesInvariant : State.reset.Inv ∧ ∃ f, step State.reset = .fault f :=
  ⟨test_reset_meets_invariant, _, rfl⟩

theorem test_witness_InstructionCompletesUnlessErrorForeseen :
    foreseenError (State.reset.setStack [1]) .ret = none ∧ foreseenError State.reset .ret = some .emptyStack ∧
    foreseenError (State.reset.setI 4094) (.drw 0 0 2) = none ∧
    foreseenError (State.reset.setI 4094) (.drw 0 0 3) = some (.outOfBounds 4096) ∧
    foreseenError (State.reset.setI 4093) (.ldBVx 0) = none ∧
    foreseenError (State.reset.setI 4097) (.ldMIVx 0) = some (.outOfBounds 4097) := by decide

theorem test_witness_UtilityErrorsNeverLeaveTheBlock : (2 : Reg) < 3 ∧ 8 ≤ 8 ∧ ∃ f, step State.reset = .fault f :=
  ⟨by decide, by decide, _, rfl⟩

/-- Each part changes under an instruction that names it, and a failing one leaves a state too. -/
theorem test_witness_OnlyNamedInstructionsChangeEachPart :
    nextWith (exec .cls (State.pixelsOn State.reset [(0, 0)])) (fun t => !t.disp.pixel 0 0) = true ∧
    nextWith (exec (.ldDtVx 1) (regs [(1, 3)])) (fun t => t.dt == 3) = true ∧
    nextWith (exec (.ldStVx 1) (regs [(1, 3)])) (fun t => t.st == 3) = true ∧
    nextWith (exec (.ldI 5) State.reset) (fun t => t.i == 5) = true ∧
    nextWith (exec (.call 5) State.reset) (fun t => t.stack == [0x200]) = true ∧
    faultWith (exec (.ldBVx 1) ((regs [(1, 255)]).setI 4095)) (.outOfBounds 4096) (fun t => byteAt t 4095 == 2) = true := by
  decide

theorem test_witness_OnlyDestinationRegistersChange : (∃ t, stateAfter (exec (.addVxVy 0 1) State.reset) = some t) ∧
    mayWriteReg 0xE (.addVxVy 0 1) = false ∧ mayWriteReg 3 (.ldVxMI 2) = false :=
  ⟨⟨_, rfl⟩, by decide, by decide⟩

theorem test_witness_InputsReadOnlyByRandomAndKeySkip : (∀ x kk, Instr.sknp 1 ≠ .rnd x kk) ∧
    ∀ x, Instr.rnd 1 2 ≠ .sknp x := ⟨nofun, nofun⟩

end Sys2Proof.Machine.Tests
end

/-! PROOFS. Every way `PC` changes (10_state.md R26): one law of execute and of the shared memory operations, from which O14
follows. -/

namespace Sys2Proof.Machine

/-! ### What an outcome leaves in `PC` -/

/-- The outcome leaves `a` in `PC` where the operation completes and `p` where it fails. -/
def leavesPc (a p : Word) : Outcome → Prop
  | .next t => t.pc = a
  | .fault f => f.left.pc = p
  | .refused _ => True

theorem leavesPc.pc_stateAfter {a : Word} {o : Outcome} {t : State} (h : leavesPc a a o) (ht : stateAfter o = some t) :
    t.pc = a := by
  cases o with
  | next u => exact Option.some.inj ht ▸ h
  | fault f => exact Option.some.inj ht ▸ h
  | refused r => cases ht

theorem raise_leavesPc (a : Word) (e : Error) (s : State) : leavesPc a s.pc (raise e s) := by
  obtain ⟨f, hf, -, hl⟩ := raise_eq_fault e s
  rw [hf]
  exact congrArg State.pc hl

theorem storeBytes_leavesPc (a : Nat) (bs : List Byte) (s : State) : leavesPc s.pc s.pc (storeBytes a bs s) := by
  obtain ⟨-, h⟩ | ⟨-, -, h⟩ := storeBytes_cases a bs s <;> rw [h] <;> rfl

theorem loadRegs_leavesPc (base : Nat) (ks : List Reg) (s : State) : leavesPc s.pc s.pc (loadRegs base ks s) := by
  induction ks generalizing s with
  | nil => rfl
  | cons k ks ih =>
    cases hr : s.mem.read (base + k.val) with
    | ok b => simpa [loadRegs, hr] using ih (s.setReg k b)
    | error e => simpa [loadRegs, hr] using raise_leavesPc s.pc e s

theorem writeResultAndFlag_pc (x : Reg) (res : Byte) (f : Bool) (s : State) :
    (writeResultAndFlag x res f s).pc = s.pc := by
  obtain ⟨-, h⟩ | ⟨-, h⟩ := writeResultAndFlag_cases s x res f <;> rw [h] <;> rfl

/-! ### Execute -/

/-- The `PC` a completing instruction leaves (R26), from the state in which execute begins. On an empty stack RET does not
complete. -/
def pcAfter (s : State) : Instr → Word
  | .jp nnn | .call nnn => addrWord nnn
  | .ret => s.stack.headD s.pc
  | i => if skips s i then s.pc + 2 else s.pc

theorem pcAfter_of_not_transfer {s : State} {i : Instr} (hj : ∀ nnn, i ≠ .jp nnn ∧ i ≠ .call nnn) (hr : i ≠ .ret) :
    pcAfter s i = if skips s i then s.pc + 2 else s.pc := by
  unfold pcAfter
  split
  next nnn => exact absurd rfl (hj nnn).1
  next nnn => exact absurd rfl (hj nnn).2
  next => exact absurd rfl hr
  next => rfl

theorem pcAfter_of_skips {s : State} {i : Instr} (h : skips s i = true) : pcAfter s i = s.pc + 2 := by
  unfold pcAfter
  split
  next => cases h
  next => cases h
  next => cases h
  next => exact if_pos h

/-- Execute leaves `pcAfter` where it completes; where it fails `PC` is as it began. -/
theorem exec_leavesPc (i : Instr) (s : State) : leavesPc (pcAfter s i) s.pc (exec i s) := by
  cases i with
  | ret =>
    cases hs : s.stack with
    | nil =>
      rw [exec_ret_nil s hs]
      rfl
    | cons a rest => simp [exec_ret_cons s hs, leavesPc, pcAfter, hs]
  | call nnn =>
    by_cases hd : s.params.stackDepth = some s.stack.length
    · rw [exec_call_full s nnn hd]
      rfl
    · rw [exec_call s nnn hd]
      rfl
  | addVxVy x y | sub x y | subn x y => exact writeResultAndFlag_pc x _ _ s
  | ldBVx x => exact storeBytes_leavesPc _ _ s
  | ldMIVx x =>
    rw [exec_ldMIVx]
    exact storeBytes_leavesPc _ _ s
  | ldVxMI x =>
    rw [exec_ldVxMI]
    exact loadRegs_leavesPc _ _ s
  | drw x y h =>
    cases hr : s.mem.readSprite s.i.toNat h with
    | ok rows =>
      rw [exec_drw s x y hr]
      rfl
    | error e => simpa [exec, execDrw, State.base, orRaise, hr] using raise_leavesPc _ e s
  | cls | jp _ | seVxKk _ _ | sneVxKk _ _ | seVxVy _ _ | sneVxVy _ _ | sknp _ | ldVxKk _ _ | addVxKk _ _ | ldVxVy _ _
  | or _ _ | and _ _ | xor _ _ | shr _ _ | shl _ _ | rnd _ _ | ldI _ | addIVx _ | ldFVx _ | ldVxDt _ | ldDtVx _
  | ldStVx _ => rfl

theorem toNat_addrWord (nnn : Addr) : (addrWord nnn).toNat = nnn.toNat :=
  BitVec.toNat_setWidth_of_le (by decide)

theorem exec_next_pc {i : Instr} {s t : State} (h : exec i s = .next t) : t.pc = pcAfter s i := by
  have hpc := exec_leavesPc i s
  rwa [h] at hpc

theorem exec_fault_pc {i : Instr} {s : State} {f : Fault} (h : exec i s = .fault f) : f.left.pc = s.pc := by
  have hpc := exec_leavesPc i s
  rwa [h] at hpc

/-- RET completes on a non-empty stack only, so the default of `pcAfter` is never what it leaves. -/
theorem exec_ret_pc {s t : State} (h : exec .ret s = .next t) : s.stack.head? = some t.pc := by
  cases hs : s.stack with
  | nil => simp [exec_ret_nil s hs] at h
  | cons a rest => simp [exec_next_pc h, pcAfter, hs]

/-! ### The operations of the host -/

theorem stepOp_error_keeps_pc {s : State} {e : Error}
    (h : fetch s = .error e ∨ ∃ w, fetch s = .ok w ∧ decode w = .error e) (rb : Byte) (ks : BitVec 16) :
    ∃ f, stepOp rb ks s = .fault f ∧ f.error = e ∧ f.left.pc = s.pc := by
  have hstep : stepOp rb ks s = raise e s := by
    obtain hf | ⟨w, hf, hd⟩ := h
    · exact stepOp_of_fetch_error hf rb ks
    · exact stepOp_of_decode_error hf hd rb ks
  obtain ⟨f, hf, he, hl⟩ := raise_eq_fault e s
  exact ⟨f, hstep.trans hf, he, congrArg State.pc hl⟩

/-- INIT_PC and RESET set `PC` to `PROGRAM_BASE`. -/
theorem perform_sets_pc {op : HostOp} {s t : State} (hop : op = .initPc ∨ op = .reset)
    (h : stateAfter (perform op s) = some t) : t.pc = addrWord s.params.programBase := by
  obtain rfl | rfl := hop <;> exact Option.some.inj h ▸ rfl

/-- TICK, LOAD_FONT and LOAD_PROGRAM leave `PC` as it was, the two loads also where they fail. -/
theorem perform_keeps_pc {op : HostOp} {s t : State}
    (hop : op = .tick ∨ (∃ table, op = .loadFont table) ∨ ∃ bytes, op = .loadProgram bytes)
    (h : stateAfter (perform op s) = some t) : t.pc = s.pc := by
  obtain rfl | ⟨table, rfl⟩ | ⟨bytes, rfl⟩ := hop
  · exact Option.some.inj h ▸ rfl
  · exact (storeBytes_leavesPc _ _ s).pc_stateAfter h
  · exact (storeBytes_leavesPc _ _ s).pc_stateAfter h

/-- Settles O14: the law of execute in the state with `PC` advanced, and the cases of the host's operations. -/
theorem programCounterChanges : Obligations.ProgramCounterChanges := by
  refine ⟨fun rb ks s => ⟨fun e he => stepOp_error_keeps_pc he rb ks, fun w i hf hd => ?_⟩, fun op s t h =>
    ⟨fun hop => perform_sets_pc hop h ▸ toNat_addrWord _, fun hop => perform_keeps_pc hop h⟩⟩
  rw [stepOp_of_ok hf hd]
  refine ⟨fun f hs => exec_fault_pc hs, fun t hs => ?_⟩
  have hpc := exec_next_pc hs
  refine ⟨?_, ?_, fun hsk => ?_, fun hj hr hsk => ?_⟩
  · rintro nnn (rfl | rfl) <;> exact hpc ▸ toNat_addrWord nnn
  · rintro rfl
    exact exec_ret_pc (s := beginExecute rb ks s) hs
  · rw [hpc, pcAfter_of_skips hsk, beginExecute_pc, BitVec.add_assoc]
    rfl
  · rw [hpc, pcAfter_of_not_transfer hj hr, hsk]
    rfl

end Sys2Proof.Machine

/-! PROOFS. Memory access (20_memory.md R52 to R54): the byte write, the two-byte read and the bulk write, from the laws of
the memory operations. -/

namespace Sys2Proof.Machine

/-! ### The error of an ascending access (60_exceptions.md R261) -/

theorem accessError_fits {a n : Nat} (h : n = 0 ∨ a + n ≤ 4096) : accessError a n = none := if_pos h

theorem accessError_overruns {a n : Nat} (hn : n ≠ 0) (hl : 4096 < a + n) :
    accessError a n = some (.outOfBounds (max a 4096)) :=
  if_neg (not_or.mpr ⟨hn, Nat.not_le.mpr hl⟩)

/-- A bulk write fails exactly as an ascending access to as many bytes does. -/
theorem Memory.writeBytes_error (m : Memory) (a : Nat) (bs : List Byte) :
    (m.writeBytes a bs).2 = accessError a bs.length := by
  by_cases hfit : bs = [] ∨ a + bs.length ≤ 4096
  · rw [Memory.writeBytes_fits hfit, accessError_fits (hfit.imp_left List.length_eq_zero_iff.mpr)]
  · obtain ⟨hne, hover⟩ := not_or.mp hfit
    have hover : 4096 < a + bs.length := Nat.not_le.mp hover
    rw [Memory.writeBytes_overruns hne hover, accessError_overruns (mt List.length_eq_zero_iff.mp hne) hover]

/-! ### The obligations -/

/-- Settles O7: below 4096 the write is `put`, whose reads are known; from 4096 up both accesses fail. -/
theorem byteWriteThenRead : Obligations.ByteWriteThenRead := fun _ _ _ hwf =>
  ⟨fun ha => ⟨_, Memory.write_of_lt ha, Memory.read_put_same hwf ha, fun _ hc => Memory.read_put_of_ne hc⟩,
    fun ha => ⟨Memory.write_of_le ha, Memory.read_of_le ha⟩⟩

/-- Settles O8: the three ranges of the address, and the word of two bytes written as a shift and an or. -/
theorem wordReadIsBigEndian : Obligations.WordReadIsBigEndian := by
  refine fun m a => ⟨fun ha => ?_, fun ha => ?_, Memory.read16_of_le⟩
  · have hhi : m.read a = .ok (m.cell a) := Memory.read_of_lt (Nat.lt_of_succ_lt ha)
    exact ⟨_, _, _, hhi, Memory.read_of_lt ha, Memory.read16_of_lt ha, wordOfBytes_eq_or _ _⟩
  · exact ha ▸ Memory.read16_last

/-- Settles O9: the bytes inside the block, the addresses outside it, and the error, one law each. -/
theorem bulkWriteKeepsBytesBeforeFailure : Obligations.BulkWriteKeepsBytesBeforeFailure := fun m a bytes hwf =>
  ⟨fun _ _ hk hlt => Memory.read_writeBytes_inside hwf hk hlt, fun _ hc => Memory.read_writeBytes_outside hc,
    Memory.writeBytes_error m a bytes⟩

end Sys2Proof.Machine

/-! PROOFS. The errors of fetch and decode (40_step_cycle.md R111, R112): which words and addresses raise them, and that
the step leaves the state it began in. -/

namespace Sys2Proof

/-! ### The illegal words of each family (30_encoding.md R90) -/

theorem decodeZero_of_ne {w : Word} (hcls : w ≠ 0x00E0) (hret : w ≠ 0x00EE) :
    decodeZero w = .error (.unrecognizedInstruction w) := by
  unfold decodeZero
  split
  next => exact absurd rfl hcls
  next => exact absurd rfl hret
  next => rfl

/-- Family `8` has no operation at these low nibbles. -/
theorem decodeAlu_of_mem {w : Word} (x y : Reg) (h : nib0 w ∈ [0x8#4, 0x9#4, 0xA#4, 0xB#4, 0xC#4, 0xD#4, 0xF#4]) :
    decodeAlu w x y = .error (.unrecognizedInstruction w) := by
  simp only [List.mem_cons, List.not_mem_nil, or_false] at h
  obtain h | h | h | h | h | h | h := h <;> simp [decodeAlu, h]

/-- Family `F` has an operation at these low bytes only. -/
theorem decodeMisc_of_not_mem {w : Word} (x : Reg)
    (h : lowByte w ∉ [0x07#8, 0x15#8, 0x18#8, 0x1E#8, 0x29#8, 0x33#8, 0x55#8, 0x65#8]) :
    decodeMisc w x = .error (.unrecognizedInstruction w) := by
  unfold decodeMisc
  split
  case h_9 => rfl
  all_goals
    next hb => exact absurd (by simp [hb]) h

end Sys2Proof

namespace Sys2Proof.Machine

/-- The families of illegal words, as propositions. -/
theorem illegalWord_iff {w : Word} : illegalWord w = true ↔
    (nib3 w = 0x0 ∧ w ≠ 0x00E0 ∧ w ≠ 0x00EE) ∨
    (nib3 w = 0x5 ∧ nib0 w ≠ 0x0) ∨
    (nib3 w = 0x8 ∧ nib0 w ∈ [0x8#4, 0x9#4, 0xA#4, 0xB#4, 0xC#4, 0xD#4, 0xF#4]) ∨
    (nib3 w = 0x9 ∧ nib0 w ≠ 0x0) ∨
    nib3 w = 0xB ∨
    (nib3 w = 0xE ∧ lowByte w ≠ 0xA1) ∨
    (nib3 w = 0xF ∧ lowByte w ∉ [0x07#8, 0x15#8, 0x18#8, 0x1E#8, 0x29#8, 0x33#8, 0x55#8, 0x65#8]) := by
  simp only [illegalWord, Bool.or_eq_true, Bool.and_eq_true, beq_iff_eq, bne_iff_ne, Bool.not_eq_true',
    List.contains_iff_mem, ← Bool.not_eq_true, or_assoc, and_assoc, ne_eq]

/-- Every word R90 lists is rejected with the word itself (R83). -/
theorem decode_of_illegalWord {w : Word} (h : illegalWord w = true) :
    decode w = .error (.unrecognizedInstruction w) := by
  obtain ⟨h3, hcls, hret⟩ | ⟨h3, h0⟩ | ⟨h3, h0⟩ | ⟨h3, h0⟩ | h3 | ⟨h3, hb⟩ | ⟨h3, hb⟩ := illegalWord_iff.mp h
  · simpa [decode, h3] using decodeZero_of_ne hcls hret
  · simpa [decode, h3] using h0
  · simpa [decode, h3] using decodeAlu_of_mem _ _ h0
  · simpa [decode, h3] using h0
  · simp [decode, h3]
  · simpa [decode, h3] using hb
  · simpa [decode, h3] using decodeMisc_of_not_mem _ hb

/-- A STEP at an illegal word fails and leaves the state it began in, whatever its inputs (R112). -/
theorem stepOp_of_illegalWord {s : State} {w : Word} (hf : fetch s = .ok w) (h : illegalWord w = true)
    (rb : Byte) (ks : BitVec 16) : stepOp rb ks s = .fault (.unrecognizedInstruction w s) :=
  stepOp_of_decode_error hf (decode_of_illegalWord h) rb ks

/-! ### The obligations -/

/-- Settles O12: fetch is the two-byte read at `PC`, so its three ranges are those of O8. -/
theorem failedFetchChangesNothing : Obligations.FailedFetchChangesNothing := by
  intro rb ks s
  obtain ⟨hread, hlast, hbeyond⟩ := wordReadIsBigEndian s.mem s.pc.toNat
  refine ⟨fun h => stepOp_of_fetch_error (hlast h) rb ks, fun h => stepOp_of_fetch_error (hbeyond h) rb ks, fun h => ?_⟩
  obtain ⟨hi, lo, w, hhi, hlo, hw, rfl⟩ := hread (Nat.succ_lt_succ h)
  exact ⟨hi, lo, hhi, hlo, hw⟩

/-- Settles O13: the state left is the state before, where the step fails for any inputs. -/
theorem failedDecodeChangesNothing : Obligations.FailedDecodeChangesNothing := fun rb rb' ks ks' _ _ hf hill =>
  ⟨_, stepOp_of_illegalWord hf hill rb ks, rfl, rfl, stepOp_of_illegalWord hf hill rb' ks'⟩

end Sys2Proof.Machine

/-! PROOFS. Control transfer (41_control_flow.md R131, R132, R134 to R137): returns, jumps and the conditional skips, from
the equations of execute and the frame rules of the updates they use. -/

namespace Sys2Proof.Machine

/-! ### Frames -/

theorem State.sameBut_refl (s : State) (parts : List Part) (regs : List Reg) : s.sameBut parts regs s := by
  simp [State.sameBut]

theorem State.sameBut.setPc {s t : State} {parts : List Part} {regs : List Reg} (h : s.sameBut parts regs t)
    (hp : .pc ∈ parts) (a : Word) : s.sameBut parts regs (t.setPc a) :=
  let ⟨hreg, _, hrest⟩ := h
  ⟨hreg, absurd hp, hrest⟩

theorem State.sameBut.setStack {s t : State} {parts : List Part} {regs : List Reg} (h : s.sameBut parts regs t)
    (hp : .stack ∈ parts) (l : List Word) : s.sameBut parts regs (t.setStack l) :=
  let ⟨hreg, hpc, hi, _, hrest⟩ := h
  ⟨hreg, hpc, hi, absurd hp, hrest⟩

theorem State.sameBut_setPc (s : State) (a : Word) : s.sameBut [.pc] [] (s.setPc a) :=
  (s.sameBut_refl _ _).setPc (by simp) a

/-! ### Jumps (R132) -/

/-- A jump to the instruction's own address undoes the increment of `PC` (R113). -/
theorem exec_jp_self {s : State} {nnn : Addr} (h : nnn.toNat = s.pc.toNat) (rb : Byte) (ks : BitVec 16) :
    exec (.jp nnn) (beginExecute rb ks s) = .next ((s.withInputs rb ks).setScreen .unchanged) := by
  have hpc : addrWord nnn = s.pc := BitVec.eq_of_toNat_eq ((toNat_addrWord nnn).trans h)
  rw [exec_jp, hpc]
  rfl

/-- The word at the last address has no low byte (R111). -/
theorem fetch_of_pc_last {s : State} (h : s.pc.toNat = 4095) : fetch s = .error (.outOfBounds 4096) := by
  rw [fetch, h, Memory.read16_last]

/-! ### Skips (R134 to R137) -/

/-- An instruction that only sets `PC` completes with its new value and the frame. -/
theorem exec_setPc_frame {i : Instr} {s : State} {a : Word} (h : exec i s = .next (s.setPc a)) :
    ∃ t, exec i s = .next t ∧ t.pc = a ∧ s.sameBut [.pc] [] t :=
  ⟨_, h, rfl, s.sameBut_setPc a⟩

/-! ### The obligations -/

/-- Settles O16: the two cases of the stack, one equation of RET each. -/
theorem retPopsIntoPc : Obligations.RetPopsIntoPc := fun s =>
  ⟨fun _ rest hs =>
    ⟨_, exec_ret_cons s hs, rfl, rfl, ((s.sameBut_refl _ _).setStack (by simp) rest).setPc (by simp) _⟩,
    exec_ret_nil s⟩

/-- Settles O17: the equation of JP with its frame, the jump to itself, and the fetch at address 4095. -/
theorem jumpSetsPc : Obligations.JumpSetsPc := by
  refine fun s nnn => ⟨?_, fun rb ks h => exec_jp_self h rb ks, fun t ht => ?_⟩
  · exact ⟨_, exec_jp s nnn, toNat_addrWord nnn, s.sameBut_setPc _⟩
  · have hpc : t.pc = addrWord 0xFFF := exec_next_pc ht
    exact fetch_of_pc_last (hpc ▸ toNat_addrWord 0xFFF)

/-- Settles O20: each skip only sets `PC`, on the condition its equation tests as a `Bool`. -/
theorem conditionalSkips : Obligations.ConditionalSkips := by
  refine fun s x y kk =>
    ⟨exec_setPc_frame ?_, exec_setPc_frame ?_, exec_setPc_frame ?_, exec_setPc_frame ?_⟩
  · simp [exec_seVxKk]
  · simp [exec_sneVxKk]
  · simp [exec_seVxVy]
  · simp [exec_sneVxVy]

end Sys2Proof.Machine

/-! PROOFS. Register load, immediate addition and random (42_load_alu.md R151, R152, R164): each instruction is one register
update, so the frame rule of that update and the value it writes settle it. -/

namespace Sys2Proof.Machine

/-! ### The frame of a register update -/

theorem State.sameBut.setReg {s t : State} {parts : List Part} {regs : List Reg} (h : s.sameBut parts regs t)
    {x : Reg} (hx : x ∈ regs) (b : Byte) : s.sameBut parts regs (t.setReg x b) :=
  let ⟨hreg, hrest⟩ := h
  ⟨fun r hr => (t.reg_setReg_of_ne x r b (ne_of_mem_of_not_mem hx hr).symm).trans (hreg r hr), hrest⟩

theorem State.sameBut_setReg (s : State) (x : Reg) (b : Byte) : s.sameBut [] [x] (s.setReg x b) :=
  (s.sameBut_refl _ _).setReg (by simp) b

/-- An instruction that only sets one register completes with its new value and the frame. -/
theorem exec_setReg_frame {i : Instr} {s : State} {x : Reg} {b : Byte} (h : exec i s = .next (s.setReg x b)) :
    ∃ t, exec i s = .next t ∧ t.reg x = b ∧ s.sameBut [] [x] t :=
  ⟨_, h, s.reg_setReg_same x b, s.sameBut_setReg x b⟩

/-! ### The obligations -/

/-- Settles O22: LD Vx, kk sets `V[x]` only. -/
theorem loadImmediate : Obligations.LoadImmediate := fun s x kk => exec_setReg_frame (exec_ldVxKk s x kk)

/-- Settles O23: ADD Vx, kk sets `V[x]` only, to a sum of bytes, which wraps modulo 256. -/
theorem addImmediateWrapsWithoutFlag : Obligations.AddImmediateWrapsWithoutFlag := by
  intro s x kk
  obtain ⟨t, ht, hsum, hframe⟩ := exec_setReg_frame (exec_addVxKk s x kk)
  exact ⟨t, ht, hsum ▸ BitVec.toNat_add _ _, hframe⟩

/-- Settles O28: RND sets `V[x]` only, to the conjunction of the input and `kk`, read bit by bit and at the two masks. -/
theorem randomIsMaskedInput : Obligations.RandomIsMaskedInput := by
  intro s x kk rb ks
  obtain ⟨t, ht, hreg, hframe⟩ := exec_setReg_frame (exec_rnd (s.withInputs rb ks) x kk)
  have hand : t.reg x = rb &&& kk := hreg
  refine ⟨t, ht, hframe, fun n _ => ?_, ?_, ?_⟩
  · rw [hand, BitVec.getLsbD_and]
  · rintro rfl
    exact hand.trans BitVec.and_zero
  · rintro rfl
    exact hand.trans BitVec.and_allOnes

end Sys2Proof.Machine

/-! PROOFS. Index register and register dump (43_index_memory.md R181, R185): LD I, nnn is one update of `I`; LD [I], Vx
is one bulk write of the block `V0` to `V[x]`, so the laws of the bulk write settle it. -/

namespace Sys2Proof.Machine

/-! ### Frames -/

theorem State.sameBut.setI {s t : State} {parts : List Part} {regs : List Reg} (h : s.sameBut parts regs t)
    (hp : .i ∈ parts) (a : Word) : s.sameBut parts regs (t.setI a) :=
  let ⟨hreg, hpc, _, hrest⟩ := h
  ⟨hreg, hpc, absurd hp, hrest⟩

theorem State.sameBut.setMem {s t : State} {parts : List Part} {regs : List Reg} (h : s.sameBut parts regs t)
    (hp : .mem ∈ parts) (m : Memory) : s.sameBut parts regs (t.setMem m) :=
  let ⟨hreg, hpc, hi, hstack, hdt, hst, _, hrest⟩ := h
  ⟨hreg, hpc, hi, hstack, hdt, hst, absurd hp, hrest⟩

theorem State.sameBut_setI (s : State) (a : Word) : s.sameBut [.i] [] (s.setI a) :=
  (s.sameBut_refl _ _).setI (by simp) a

theorem State.sameBut_setMem (s : State) (m : Memory) : s.sameBut [.mem] [] (s.setMem m) :=
  (s.sameBut_refl _ _).setMem (by simp) m

/-! ### The register block (R185) -/

/-- The bytes LD [I], Vx stores, `V0` to `V[x]` in ascending order. -/
def State.regBlock (s : State) (x : Reg) : List Byte := ((List.finRange 16).take (x.val + 1)).map s.reg

theorem State.length_regBlock (s : State) (x : Reg) : (s.regBlock x).length = x.val + 1 := by
  rw [State.regBlock, List.length_map, length_regsUpTo]

theorem State.getElem?_regBlock (s : State) {x k : Reg} (h : k ≤ x) : (s.regBlock x)[k.val]? = some (s.reg k) := by
  rw [State.regBlock, List.getElem?_map, getElem?_regsUpTo h, Option.map_some]

/-- The block is never empty: "`x + 1` bytes are stored, never zero". -/
theorem State.regBlock_ne_nil (s : State) (x : Reg) : s.regBlock x ≠ [] :=
  List.ne_nil_of_length_eq_add_one (s.length_regBlock x)

/-- The state LD [I], Vx leaves, whether it completes or fails. -/
def State.dumped (s : State) (x : Reg) : State := s.setMem (s.mem.writeBytes s.i.toNat (s.regBlock x)).1

theorem exec_ldMIVx_eq_storeBytes (s : State) (x : Reg) :
    exec (.ldMIVx x) s = storeBytes s.i.toNat (s.regBlock x) s := exec_ldMIVx s x

theorem exec_ldMIVx_fits {s : State} {x : Reg} (h : s.i.toNat + x.val < 4096) :
    exec (.ldMIVx x) s = .next (s.dumped x) := by
  have hfit : s.i.toNat + (s.regBlock x).length ≤ 4096 := by rwa [s.length_regBlock]
  rw [exec_ldMIVx_eq_storeBytes, storeBytes_fits s (.inr hfit), State.dumped]

theorem exec_ldMIVx_overruns {s : State} {x : Reg} (h : 4096 ≤ s.i.toNat + x.val) :
    exec (.ldMIVx x) s = .fault (.outOfBounds (max s.i.toNat 4096) (s.dumped x)) := by
  have hover : 4096 < s.i.toNat + (s.regBlock x).length := by
    rw [s.length_regBlock]
    exact Nat.lt_succ_of_le h
  rw [exec_ldMIVx_eq_storeBytes, storeBytes_overruns s (s.regBlock_ne_nil x) hover, State.dumped]

theorem State.dumped_read_inside {s : State} {x k : Reg} (hwf : s.mem.wf) (hk : k ≤ x)
    (hlt : s.i.toNat + k.val < 4096) : (s.dumped x).mem.read (s.i.toNat + k.val) = .ok (s.reg k) :=
  Memory.read_writeBytes_inside hwf (s.getElem?_regBlock hk) hlt

theorem State.dumped_read_outside {s : State} {x : Reg} {c : Nat} (h : c < s.i.toNat ∨ s.i.toNat + x.val < c) :
    (s.dumped x).mem.read c = s.mem.read c :=
  Memory.read_writeBytes_outside (s.length_regBlock x ▸ h)

/-! ### The obligations -/

/-- Settles O30: LD I, nnn sets `I` only, to the address extended to a word. -/
theorem setIndexRegister : Obligations.SetIndexRegister := fun s nnn =>
  ⟨_, exec_ldI s nnn, toNat_addrWord nnn, s.sameBut_setI _⟩

/-- Settles O33: the two ranges of `I + x`, the frame of a memory update, and the reads inside and outside the block. -/
theorem dumpStoresRegisterBlock : Obligations.DumpStoresRegisterBlock := fun s x hwf =>
  ⟨s.dumped x, exec_ldMIVx_fits, exec_ldMIVx_overruns, s.sameBut_setMem _,
    fun _ => State.dumped_read_inside hwf, fun _ => State.dumped_read_outside⟩

end Sys2Proof.Machine

/-! PROOFS. The blitter (44_display.md R203): what one row does and what the rows below it do are disjoint sets of flips,
and disjoint sets of flips compose, from which O38 follows. -/

namespace Sys2Proof.Machine

/-! ### Flipping a set of pixels -/

/-- From `acc` to `out`, exactly the pixels of `V` are flipped, and the report is raised exactly if one of them was on. -/
structure FlipsExactly (V : Nat → Nat → Prop) (acc out : Display × Bool) : Prop where
  flipped : ∀ x y, V x y → out.1.pixel x y = !acc.1.pixel x y
  kept : ∀ x y, ¬ V x y → out.1.pixel x y = acc.1.pixel x y
  report : out.2 = true ↔ acc.2 = true ∨ ∃ x y, V x y ∧ acc.1.pixel x y = true

namespace FlipsExactly

variable {V W U : Nat → Nat → Prop} {acc mid out : Display × Bool}

theorem refl (hV : ∀ x y, ¬ V x y) (acc : Display × Bool) : FlipsExactly V acc acc where
  flipped x y h := absurd h (hV x y)
  kept _ _ _ := rfl
  report := by simp [hV]

/-- Two sets of flips in a row flip their union, where no pixel is in both: the second still finds its own pixels as they
were before the first. -/
theorem trans (h₁ : FlipsExactly V acc mid) (h₂ : FlipsExactly W mid out) (hdisj : ∀ x y, V x y → ¬ W x y)
    (hU : ∀ x y, U x y ↔ V x y ∨ W x y) : FlipsExactly U acc out where
  flipped x y h := by
    obtain hV | hW := (hU x y).mp h
    · rw [h₂.kept x y (hdisj x y hV), h₁.flipped x y hV]
    · rw [h₂.flipped x y hW, h₁.kept x y fun hV => hdisj x y hV hW]
  kept x y h := by
    obtain ⟨hV, hW⟩ := not_or.mp ((not_congr (hU x y)).mp h)
    rw [h₂.kept x y hW, h₁.kept x y hV]
  report := by
    have hmid : ∀ x y, (W x y ∧ mid.1.pixel x y = true) ↔ (W x y ∧ acc.1.pixel x y = true) := fun x y =>
      and_congr_right fun hW => by rw [h₁.kept x y fun hV => hdisj x y hV hW]
    simp only [h₂.report, h₁.report, hmid, hU, or_and_right, exists_or, or_assoc]

end FlipsExactly

/-! ### The rows of a sprite -/

theorem blitRow_flipsExactly (x0 py : Nat) (row : Byte) (acc : Display × Bool) :
    FlipsExactly (rowVisits x0 py row (List.range 8)) acc (blitRow x0 py row acc) :=
  have ⟨hflip, hkeep, hreport⟩ := blitRow_spec x0 py row acc
  ⟨hflip, hkeep, hreport⟩

theorem not_visited_nil (x0 y0 x y : Nat) : ¬ Visited x0 y0 [] x y := by
  simp [Visited]

theorem Visited.y0_le {x0 y0 x y : Nat} {rows : List Byte} (h : Visited x0 y0 rows x y) : y0 ≤ y := by
  obtain ⟨-, -, r, -, -, -, -, -, -, rfl⟩ := h
  exact Nat.le_add_right y0 r

/-- No pixel of a row is visited again from a row below. -/
theorem rowVisits.not_visited_below {x0 py x y : Nat} {row : Byte} {cs : List Nat} {rows : List Byte}
    (h : rowVisits x0 py row cs x y) : ¬ Visited x0 (py + 1) rows x y := by
  obtain ⟨-, -, rfl, -⟩ := h
  exact fun hv => Nat.not_succ_le_self _ hv.y0_le

theorem blitRows_flipsExactly (x0 py : Nat) (rows : List Byte) (acc : Display × Bool) :
    FlipsExactly (Visited x0 py rows) acc (blitRows x0 py rows acc) := by
  induction rows generalizing py acc with
  | nil => exact .refl (not_visited_nil x0 py) acc
  | cons row rows ih =>
    exact (blitRow_flipsExactly x0 py row acc).trans (ih (py + 1) (blitRow x0 py row acc))
      (fun _ _ => rowVisits.not_visited_below) (visited_cons x0 py row rows)

theorem blit_flipsExactly (x0 y0 : Nat) (rows : List Byte) (d : Display) :
    FlipsExactly (Visited x0 y0 rows) (d, false) (blit x0 y0 rows d) :=
  blitRows_flipsExactly x0 y0 rows (d, false)

/-! ### The obligation -/

/-- Settles O38: the blitter flips exactly the visited pixels, starting from a report of No. -/
theorem blitFlipsVisitedPixels : Obligations.BlitFlipsVisitedPixels := fun d x0 y0 rows =>
  have h := blit_flipsExactly x0 y0 rows d
  ⟨h.flipped, h.kept, by simpa only [Bool.false_eq_true, false_or] using h.report⟩

end Sys2Proof.Machine

/-! PROOFS. INIT_PC (46_host_operations.md R243): the operation is one update of `PC`, and one that sets `PC` to what RESET
has already put there. -/

namespace Sys2Proof.Machine

/-! ### The operations as state updates -/

theorem perform_initPc (s : State) : perform .initPc s = .next (s.setPc (addrWord s.params.programBase)) := rfl

theorem perform_reset (s : State) : perform .reset s = .next (hostReset s) := rfl

@[simp] theorem hostReset_params (s : State) : (hostReset s).params = s.params := rfl

/-- RESET leaves `PC` at `PROGRAM_BASE` (10_state.md R37). -/
@[simp] theorem hostReset_pc (s : State) : (hostReset s).pc = addrWord s.params.programBase := rfl

/-! ### Where INIT_PC changes nothing -/

theorem State.setPc_eq_self {s : State} {a : Word} (h : s.pc = a) : s.setPc a = s := by
  subst h
  rfl

theorem perform_initPc_eq_self {s : State} (h : s.pc = addrWord s.params.programBase) : perform .initPc s = .next s := by
  rw [perform_initPc, State.setPc_eq_self h]

/-! ### The obligation -/

/-- Settles O47: the frame of an update of `PC`, and that RESET leaves `PC` where INIT_PC would set it. -/
theorem initPcSetsLoadAddress : Obligations.InitPcSetsLoadAddress := by
  refine fun s => ⟨?_, ?_⟩
  · exact ⟨_, perform_initPc s, toNat_addrWord s.params.programBase, s.sameBut_setPc _⟩
  · have hpc : (hostReset s).pc = addrWord (hostReset s).params.programBase := by rw [hostReset_pc, hostReset_params]
    exact ⟨hostReset s, perform_reset s, perform_initPc_eq_self hpc⟩

end Sys2Proof.Machine

/-! PROOFS. The decoder and the encoder (30_encoding.md R83 to R91): each inverts the other, a row of the opcode table
selects exactly the words of its format, and a word is rejected only where R90 lists it. -/

namespace Sys2Proof

/-! ### Decoding what the encoder writes -/

theorem decode_encode {i : Instr} (h : i.wellFormed = true) : decode (encode i) = .ok i := by
  cases i with
  | cls | ret => rfl
  | jp nnn | call nnn | ldI nnn => simp [encode, decode]
  | seVxKk x kk | sneVxKk x kk | ldVxKk x kk | addVxKk x kk | rnd x kk => simp [encode, decode]
  | seVxVy x y | sneVxVy x y => simp [encode, decode]
  | ldVxVy x y | or x y | and x y | xor x y | addVxVy x y | sub x y | shr x y | subn x y | shl x y =>
    simp [encode, decode, decodeAlu]
  | drw x y h' =>
    have hlt : h' < 16 := Nat.lt_succ_of_le (of_decide_eq_true h)
    simp [encode, decode, Nat.mod_eq_of_lt hlt]
  | sknp x => simp [encode, decode]
  | ldVxDt x | ldDtVx x | ldStVx x | addIVx x | ldFVx x | ldBVx x | ldMIVx x | ldVxMI x =>
    simp [encode, decode, decodeMisc]

/-! ### A word is its operation nibble and the other fields of its format -/

section
variable {w : Word} {op : BitVec 4}

theorem eq_formatA (h3 : nib3 w = op) : formatA op (lowAddr w) = w := h3 ▸ formatA_fields w

theorem eq_formatI (h3 : nib3 w = op) : formatI op (regOfNibble (nib2 w)) (lowByte w) = w := h3 ▸ formatI_fields w

theorem eq_formatX {kk : Byte} (h3 : nib3 w = op) (hb : lowByte w = kk) : formatI op (regOfNibble (nib2 w)) kk = w :=
  hb ▸ eq_formatI h3

theorem eq_formatD (h3 : nib3 w = op) :
    formatR op (regOfNibble (nib2 w)) (regOfNibble (nib1 w)) (nib0 w) = w := h3 ▸ formatR_fields w

theorem eq_formatR {n : BitVec 4} (h3 : nib3 w = op) (h0 : nib0 w = n) :
    formatR op (regOfNibble (nib2 w)) (regOfNibble (nib1 w)) n = w := h0 ▸ eq_formatD h3

/-! ### Encoding what the decoder reads -/

/-- The instruction stands for the word: it is well-formed and the word is its encoding. -/
abbrev Instr.StandsFor (i : Instr) (w : Word) : Prop := i.wellFormed = true ∧ encode i = w

theorem standsFor_drw (h3 : nib3 w = 0xD) :
    (Instr.drw (regOfNibble (nib2 w)) (regOfNibble (nib1 w)) (nib0 w).toNat).StandsFor w := by
  refine ⟨decide_eq_true (Nat.le_of_lt_succ (nib0 w).isLt), ?_⟩
  simpa [encode] using eq_formatD h3

/-- What a decoder may answer for a word: an instruction that stands for it, or, where R90 lists the word, an error. -/
def Faithful (w : Word) (r : Except Error Instr) : Prop :=
  (∃ i, r = .ok i ∧ i.StandsFor w) ∨ Machine.illegalWord w = true

theorem Faithful.ok {i : Instr} (hwf : i.wellFormed = true) (h : encode i = w) : Faithful w (.ok i) :=
  .inl ⟨i, rfl, hwf, h⟩

theorem decodeZero_faithful (h3 : nib3 w = 0x0) : Faithful w (decodeZero w) := by
  unfold decodeZero
  split
  next => exact .ok rfl rfl
  next => exact .ok rfl rfl
  next hcls hret => exact .inr (Machine.illegalWord_iff.mpr (by simp [h3, Ne.intro hcls, Ne.intro hret]))

/-- The low nibbles at which family `8` has no operation. -/
theorem aluNibble_without_operation : ∀ n : BitVec 4, n ≠ 0x0 → n ≠ 0x1 → n ≠ 0x2 → n ≠ 0x3 → n ≠ 0x4 → n ≠ 0x5 →
    n ≠ 0x6 → n ≠ 0x7 → n ≠ 0xE → n ∈ [0x8#4, 0x9#4, 0xA#4, 0xB#4, 0xC#4, 0xD#4, 0xF#4] := by decide

theorem decodeAlu_faithful (h3 : nib3 w = 0x8) :
    Faithful w (decodeAlu w (regOfNibble (nib2 w)) (regOfNibble (nib1 w))) := by
  unfold decodeAlu
  split
  case h_10 h0 h1 h2 h3' h4 h5 h6 h7 hE =>
    have hmem := aluNibble_without_operation _ h0 h1 h2 h3' h4 h5 h6 h7 hE
    exact .inr (Machine.illegalWord_iff.mpr (.inr (.inr (.inl ⟨h3, hmem⟩))))
  all_goals
    next h0 => exact .ok rfl (eq_formatR h3 h0)

theorem decodeMisc_faithful (h3 : nib3 w = 0xF) : Faithful w (decodeMisc w (regOfNibble (nib2 w))) := by
  unfold decodeMisc
  split
  case h_9 h1 h2 h3' h4 h5 h6 h7 h8 =>
    have hmem : lowByte w ∉ [0x07#8, 0x15#8, 0x18#8, 0x1E#8, 0x29#8, 0x33#8, 0x55#8, 0x65#8] := by
      simp only [List.mem_cons, List.not_mem_nil, or_false, not_or]
      exact ⟨h1, h2, h3', h4, h5, h6, h7, h8⟩
    exact .inr (Machine.illegalWord_iff.mpr (by simp only [h3, hmem, not_false_eq_true, and_self, or_true]))
  all_goals
    next hb => exact .ok rfl (eq_formatX h3 hb)

/-- A family with one operation, selected by a condition on the word. -/
theorem faithful_ite {c : Prop} [Decidable c] {i : Instr} {e : Error} (hi : c → Faithful w (.ok i))
    (he : ¬ c → Machine.illegalWord w = true) : Faithful w (if c then .ok i else .error e) := by
  split
  next h => exact hi h
  next h => exact .inr (he h)

/-- The only operation nibble no instruction has is `B`. -/
theorem nib3_eq_B : ∀ n : BitVec 4, n ∉ [0x0#4, 0x1#4, 0x2#4, 0x3#4, 0x4#4, 0x5#4, 0x6#4, 0x7#4, 0x8#4, 0x9#4, 0xA#4,
    0xC#4, 0xD#4, 0xE#4, 0xF#4] → n = 0xB#4 := by decide

theorem decode_faithful (w : Word) : Faithful w (decode w) := by
  unfold decode
  dsimp only
  split
  next h3 => exact decodeZero_faithful h3
  next h3 => exact .ok rfl (eq_formatA h3)
  next h3 => exact .ok rfl (eq_formatA h3)
  next h3 => exact .ok rfl (eq_formatI h3)
  next h3 => exact .ok rfl (eq_formatI h3)
  next h3 =>
    exact faithful_ite (fun h0 => .ok rfl (eq_formatR h3 h0)) fun h0 =>
      Machine.illegalWord_iff.mpr (by simp [h3, h0])
  next h3 => exact .ok rfl (eq_formatI h3)
  next h3 => exact .ok rfl (eq_formatI h3)
  next h3 => exact decodeAlu_faithful h3
  next h3 =>
    exact faithful_ite (fun h0 => .ok rfl (eq_formatR h3 h0)) fun h0 =>
      Machine.illegalWord_iff.mpr (by simp [h3, h0])
  next h3 => exact .ok rfl (eq_formatA h3)
  next h3 => exact .ok rfl (eq_formatI h3)
  next h3 => exact .inl ⟨_, rfl, standsFor_drw h3⟩
  next h3 =>
    exact faithful_ite (fun hb => .ok rfl (eq_formatX h3 hb)) fun hb =>
      Machine.illegalWord_iff.mpr (by simp [h3, hb])
  next h3 => exact decodeMisc_faithful h3
  next h0 h1 h2 h3 h4 h5 h6 h7 h8 h9 hA hC hD hE hF =>
    have hB : nib3 w = 0xB#4 := nib3_eq_B _ (by
      simp only [List.mem_cons, List.not_mem_nil, or_false, not_or]
      exact ⟨h0, h1, h2, h3, h4, h5, h6, h7, h8, h9, hA, hC, hD, hE, hF⟩)
    exact .inr (Machine.illegalWord_iff.mpr (by simp [hB]))

end

theorem decode_of_legalWord {w : Word} (h : Machine.illegalWord w = false) : ∃ i, decode w = .ok i := by
  obtain ⟨i, hi, -⟩ | hill := decode_faithful w
  · exact ⟨i, hi⟩
  · exact absurd hill (Bool.eq_false_iff.mp h)

theorem standsFor_of_decode {w : Word} {i : Instr} (h : decode w = .ok i) : i.StandsFor w := by
  obtain ⟨j, hj, hw⟩ | hill := decode_faithful w
  · obtain rfl : j = i := Except.ok.inj (hj.symm.trans h)
    exact hw
  · cases h.symm.trans (Machine.decode_of_illegalWord hill)

/-! ### The rows of the opcode table (R84) -/

/-- The row of an instruction selects its word: the law of `Laws/PerInstr.lean` for every instruction. -/
theorem encode_inOwnRow (i : Instr) : Laws.EncodeInOwnRow.Statement i := by
  cases i with
  | cls => exact Laws.EncodeInOwnRow.cls
  | ret => exact Laws.EncodeInOwnRow.ret
  | jp nnn => exact Laws.EncodeInOwnRow.jp nnn
  | call nnn => exact Laws.EncodeInOwnRow.call nnn
  | seVxKk x kk => exact Laws.EncodeInOwnRow.seVxKk x kk
  | sneVxKk x kk => exact Laws.EncodeInOwnRow.sneVxKk x kk
  | seVxVy x y => exact Laws.EncodeInOwnRow.seVxVy x y
  | ldVxKk x kk => exact Laws.EncodeInOwnRow.ldVxKk x kk
  | addVxKk x kk => exact Laws.EncodeInOwnRow.addVxKk x kk
  | ldVxVy x y => exact Laws.EncodeInOwnRow.ldVxVy x y
  | or x y => exact Laws.EncodeInOwnRow.or x y
  | and x y => exact Laws.EncodeInOwnRow.and x y
  | xor x y => exact Laws.EncodeInOwnRow.xor x y
  | addVxVy x y => exact Laws.EncodeInOwnRow.addVxVy x y
  | sub x y => exact Laws.EncodeInOwnRow.sub x y
  | shr x y => exact Laws.EncodeInOwnRow.shr x y
  | subn x y => exact Laws.EncodeInOwnRow.subn x y
  | shl x y => exact Laws.EncodeInOwnRow.shl x y
  | sneVxVy x y => exact Laws.EncodeInOwnRow.sneVxVy x y
  | ldI nnn => exact Laws.EncodeInOwnRow.ldI nnn
  | rnd x kk => exact Laws.EncodeInOwnRow.rnd x kk
  | drw x y h => exact Laws.EncodeInOwnRow.drw x y h
  | sknp x => exact Laws.EncodeInOwnRow.sknp x
  | ldVxDt x => exact Laws.EncodeInOwnRow.ldVxDt x
  | ldDtVx x => exact Laws.EncodeInOwnRow.ldDtVx x
  | ldStVx x => exact Laws.EncodeInOwnRow.ldStVx x
  | addIVx x => exact Laws.EncodeInOwnRow.addIVx x
  | ldFVx x => exact Laws.EncodeInOwnRow.ldFVx x
  | ldBVx x => exact Laws.EncodeInOwnRow.ldBVx x
  | ldMIVx x => exact Laws.EncodeInOwnRow.ldMIVx x
  | ldVxMI x => exact Laws.EncodeInOwnRow.ldVxMI x

section
variable {w : Word} {id : String} {op n : BitVec 4} {kk : Byte}

theorem eq_of_selects_maskFFFF {pattern : Word} (h : OpcodeRow.selects ⟨id, pattern, 0xFFFF⟩ w = true) :
    pattern = w :=
  (beq_iff_eq.mp h).symm.trans BitVec.and_allOnes

theorem nib3_of_selects_maskF000 (h : OpcodeRow.selects ⟨id, formatA op 0, 0xF000⟩ w = true) : nib3 w = op := by
  have hfields : formatA (nib3 w) 0 = formatA op 0 := (and_maskF000 w).symm.trans (beq_iff_eq.mp h)
  simpa using congrArg nib3 hfields

theorem nibs_of_selects_maskF00F (h : OpcodeRow.selects ⟨id, formatR op 0 0 n, 0xF00F⟩ w = true) :
    nib3 w = op ∧ nib0 w = n := by
  have hfields : formatR (nib3 w) 0 0 (nib0 w) = formatR op 0 0 n := (and_maskF00F w).symm.trans (beq_iff_eq.mp h)
  exact ⟨by simpa using congrArg nib3 hfields, by simpa using congrArg nib0 hfields⟩

theorem nib3_lowByte_of_selects_maskF0FF (h : OpcodeRow.selects ⟨id, formatI op 0 kk, 0xF0FF⟩ w = true) :
    nib3 w = op ∧ lowByte w = kk := by
  have hfields : formatI (nib3 w) 0 (lowByte w) = formatI op 0 kk := (and_maskF0FF w).symm.trans (beq_iff_eq.mp h)
  exact ⟨by simpa using congrArg nib3 hfields, by simpa using congrArg lowByte hfields⟩

/-! A row selects only words of its format, whose fields are then the operands. -/

theorem formatA_of_selects (h : OpcodeRow.selects ⟨id, formatA op 0, 0xF000⟩ w = true) :
    formatA op (lowAddr w) = w := eq_formatA (nib3_of_selects_maskF000 h)

theorem formatI_of_selects (h : OpcodeRow.selects ⟨id, formatA op 0, 0xF000⟩ w = true) :
    formatI op (regOfNibble (nib2 w)) (lowByte w) = w := eq_formatI (nib3_of_selects_maskF000 h)

theorem formatR_of_selects (h : OpcodeRow.selects ⟨id, formatR op 0 0 n, 0xF00F⟩ w = true) :
    formatR op (regOfNibble (nib2 w)) (regOfNibble (nib1 w)) n = w :=
  have ⟨h3, h0⟩ := nibs_of_selects_maskF00F h
  eq_formatR h3 h0

theorem formatX_of_selects (h : OpcodeRow.selects ⟨id, formatI op 0 kk, 0xF0FF⟩ w = true) :
    formatI op (regOfNibble (nib2 w)) kk = w :=
  have ⟨h3, hb⟩ := nib3_lowByte_of_selects_maskF0FF h
  eq_formatX h3 hb

end

/-- The row selects only words an instruction of that row stands for. -/
def OpcodeRow.Sound (r : OpcodeRow) : Prop :=
  ∀ w, r.selects w = true → ∃ i : Instr, i.StandsFor w ∧ i.rowId = r.id

theorem opcodeRowsLow_sound : ∀ r ∈ opcodeRowsLow, r.Sound := by
  simp only [opcodeRowsLow, List.forall_mem_cons, List.not_mem_nil, IsEmpty.forall_iff, implies_true, and_true]
  exact ⟨fun _ h => ⟨.cls, ⟨rfl, eq_of_selects_maskFFFF h⟩, rfl⟩,
    fun _ h => ⟨.ret, ⟨rfl, eq_of_selects_maskFFFF h⟩, rfl⟩,
    fun _ h => ⟨.jp _, ⟨rfl, formatA_of_selects h⟩, rfl⟩,
    fun _ h => ⟨.call _, ⟨rfl, formatA_of_selects h⟩, rfl⟩,
    fun _ h => ⟨.seVxKk _ _, ⟨rfl, formatI_of_selects h⟩, rfl⟩,
    fun _ h => ⟨.sneVxKk _ _, ⟨rfl, formatI_of_selects h⟩, rfl⟩,
    fun _ h => ⟨.seVxVy _ _, ⟨rfl, formatR_of_selects h⟩, rfl⟩,
    fun _ h => ⟨.ldVxKk _ _, ⟨rfl, formatI_of_selects h⟩, rfl⟩,
    fun _ h => ⟨.addVxKk _ _, ⟨rfl, formatI_of_selects h⟩, rfl⟩⟩

theorem opcodeRowsAlu_sound : ∀ r ∈ opcodeRowsAlu, r.Sound := by
  simp only [opcodeRowsAlu, List.forall_mem_cons, List.not_mem_nil, IsEmpty.forall_iff, implies_true, and_true]
  exact ⟨fun _ h => ⟨.ldVxVy _ _, ⟨rfl, formatR_of_selects h⟩, rfl⟩,
    fun _ h => ⟨.or _ _, ⟨rfl, formatR_of_selects h⟩, rfl⟩,
    fun _ h => ⟨.and _ _, ⟨rfl, formatR_of_selects h⟩, rfl⟩,
    fun _ h => ⟨.xor _ _, ⟨rfl, formatR_of_selects h⟩, rfl⟩,
    fun _ h => ⟨.addVxVy _ _, ⟨rfl, formatR_of_selects h⟩, rfl⟩,
    fun _ h => ⟨.sub _ _, ⟨rfl, formatR_of_selects h⟩, rfl⟩,
    fun _ h => ⟨.shr _ _, ⟨rfl, formatR_of_selects h⟩, rfl⟩,
    fun _ h => ⟨.subn _ _, ⟨rfl, formatR_of_selects h⟩, rfl⟩,
    fun _ h => ⟨.shl _ _, ⟨rfl, formatR_of_selects h⟩, rfl⟩,
    fun _ h => ⟨.sneVxVy _ _, ⟨rfl, formatR_of_selects h⟩, rfl⟩⟩

theorem opcodeRowsHigh_sound : ∀ r ∈ opcodeRowsHigh, r.Sound := by
  simp only [opcodeRowsHigh, List.forall_mem_cons, List.not_mem_nil, IsEmpty.forall_iff, implies_true, and_true]
  exact ⟨fun _ h => ⟨.ldI _, ⟨rfl, formatA_of_selects h⟩, rfl⟩,
    fun _ h => ⟨.rnd _ _, ⟨rfl, formatI_of_selects h⟩, rfl⟩,
    fun _ h => ⟨.drw _ _ _, standsFor_drw (nib3_of_selects_maskF000 h), rfl⟩,
    fun _ h => ⟨.sknp _, ⟨rfl, formatX_of_selects h⟩, rfl⟩,
    fun _ h => ⟨.ldVxDt _, ⟨rfl, formatX_of_selects h⟩, rfl⟩,
    fun _ h => ⟨.ldDtVx _, ⟨rfl, formatX_of_selects h⟩, rfl⟩,
    fun _ h => ⟨.ldStVx _, ⟨rfl, formatX_of_selects h⟩, rfl⟩,
    fun _ h => ⟨.addIVx _, ⟨rfl, formatX_of_selects h⟩, rfl⟩,
    fun _ h => ⟨.ldFVx _, ⟨rfl, formatX_of_selects h⟩, rfl⟩,
    fun _ h => ⟨.ldBVx _, ⟨rfl, formatX_of_selects h⟩, rfl⟩,
    fun _ h => ⟨.ldMIVx _, ⟨rfl, formatX_of_selects h⟩, rfl⟩,
    fun _ h => ⟨.ldVxMI _, ⟨rfl, formatX_of_selects h⟩, rfl⟩⟩

theorem opcodeTable_sound : ∀ r ∈ opcodeTable, r.Sound := by
  rw [opcodeTable, List.forall_mem_append, List.forall_mem_append]
  exact ⟨⟨opcodeRowsLow_sound, opcodeRowsAlu_sound⟩, opcodeRowsHigh_sound⟩

/-- A row that selects the word has its instruction given by decode. -/
theorem decode_of_selects {r : OpcodeRow} {w : Word} (hr : r ∈ opcodeTable) (h : r.selects w = true) :
    ∃ i, decode w = .ok i ∧ i.rowId = r.id := by
  obtain ⟨i, ⟨hwf, rfl⟩, hid⟩ := opcodeTable_sound r hr w h
  exact ⟨i, decode_encode hwf, hid⟩

theorem opcodeTable_ids_nodup : (opcodeTable.map OpcodeRow.id).Nodup := by decide

end Sys2Proof

namespace Sys2Proof.Machine

/-! ### The obligations -/

/-- Settles O1: each word is the encoding of the instruction named, and 0xFFFF is in the list of illegal words. -/
theorem writtenOutWordsDecode : Obligations.WrittenOutWordsDecode :=
  ⟨decode_encode (i := .cls) rfl, decode_encode (i := .ldI 0x22A) rfl, decode_encode (i := .ldVxKk 1 0x23) rfl,
    decode_encode (i := .drw 1 2 3) rfl, decode_of_illegalWord (by decide), decode_encode (i := .call 0x345) rfl,
    decode_encode (i := .shl 1 2) rfl, decode_encode (i := .sknp 5) rfl, decode_encode (i := .ldDtVx 4) rfl,
    decode_encode (i := .ldVxMI 0xA) rfl, decode_encode (i := .sneVxVy 0xA 0xB) rfl⟩

/-- Settles O2: the decoder on each format, by the fields of the words the formats build. -/
theorem decodeOfEncodeIsIdentity : Obligations.DecodeOfEncodeIsIdentity := fun _ => decode_encode

/-- Settles O3: the decoder answers only instructions that stand for the word. -/
theorem encodeOfDecodeIsIdentity : Obligations.EncodeOfDecodeIsIdentity := fun _ _ => standsFor_of_decode

/-- Settles O4: the row of an instruction selects its encoding, and a row selects only words of its format. -/
theorem decodeFollowsOpcodeTable : Obligations.DecodeFollowsOpcodeTable := by
  refine fun w => ⟨fun i hi => ?_, fun r hr hsel => decode_of_selects hr hsel⟩
  obtain ⟨-, rfl⟩ := standsFor_of_decode hi
  exact encode_inOwnRow i

/-- Settles O5: two rows that select a word both name the one instruction it decodes to, and no two rows share an id. -/
theorem opcodeRowsAreDisjoint : Obligations.OpcodeRowsAreDisjoint := by
  intro w r hr q hq hrw hqw
  obtain ⟨i, hi, hir⟩ := decode_of_selects hr hrw
  obtain ⟨j, hj, hjq⟩ := decode_of_selects hq hqw
  obtain rfl : i = j := Except.ok.inj (hi.symm.trans hj)
  exact List.inj_on_of_nodup_map opcodeTable_ids_nodup hr hq (hir.symm.trans hjq)

/-- Settles O6: the listed words are rejected, and any other has an instruction that stands for it. -/
theorem illegalWordsAreRejected : Obligations.IllegalWordsAreRejected := fun _ =>
  ⟨decode_of_illegalWord, decode_of_legalWord⟩

end Sys2Proof.Machine

/-! PROOFS. What execute may change and how it may end (10_state.md R20, R23; 60_exceptions.md R260 to R269): one induction
over the writes of an instruction, from which its frame follows, and one law of its errors; then the same for every step. -/

namespace Sys2Proof.Machine

/-! ### The frames of the remaining updates -/

section
variable {s t : State} {parts : List Part} {regs : List Reg}

theorem State.sameBut.setDt (h : s.sameBut parts regs t) (hp : .dt ∈ parts) (b : Byte) :
    s.sameBut parts regs (t.setDt b) :=
  let ⟨hreg, hpc, hi, hstack, _, hrest⟩ := h
  ⟨hreg, hpc, hi, hstack, absurd hp, hrest⟩

theorem State.sameBut.setSt (h : s.sameBut parts regs t) (hp : .st ∈ parts) (b : Byte) :
    s.sameBut parts regs (t.setSt b) :=
  let ⟨hreg, hpc, hi, hstack, hdt, _, hrest⟩ := h
  ⟨hreg, hpc, hi, hstack, hdt, absurd hp, hrest⟩

theorem State.sameBut.setDisp (h : s.sameBut parts regs t) (hp : .disp ∈ parts) (d : Display) :
    s.sameBut parts regs (t.setDisp d) :=
  let ⟨hreg, hpc, hi, hstack, hdt, hst, hmem, _, hrest⟩ := h
  ⟨hreg, hpc, hi, hstack, hdt, hst, hmem, absurd hp, hrest⟩

theorem State.sameBut.setScreen (h : s.sameBut parts regs t) (hp : .screen ∈ parts) (c : ScreenChanged) :
    s.sameBut parts regs (t.setScreen c) :=
  let ⟨hreg, hpc, hi, hstack, hdt, hst, hmem, hdisp, _, hrest⟩ := h
  ⟨hreg, hpc, hi, hstack, hdt, hst, hmem, hdisp, absurd hp, hrest⟩

end

/-! ### Everything DRW can do (44_display.md R202) -/

/-- The state DRW leaves once it has read its rows. -/
def State.drawn (s : State) (x y : Reg) (rows : List Byte) : State :=
  ((s.setDisp (blit (s.reg x).toNat (s.reg y).toNat rows s.disp).1).setReg Reg.vf
    (flagByte (blit (s.reg x).toNat (s.reg y).toNat rows s.disp).2)).setScreen .changed

theorem exec_drw_eq_drawn {s : State} {h : Nat} {rows : List Byte} (hr : s.mem.readSprite s.i.toNat h = .ok rows)
    (x y : Reg) : exec (.drw x y h) s = .next (s.drawn x y rows) := exec_drw s x y hr

/-- DRW reads its rows and draws them, or raises the error of the read and changes nothing. -/
theorem exec_drw_cases (x y : Reg) (h : Nat) (s : State) :
    ((h = 0 ∨ s.i.toNat + h ≤ 4096) ∧ ∃ rows, s.mem.readSprite s.i.toNat h = .ok rows ∧
      exec (.drw x y h) s = .next (s.drawn x y rows)) ∨
    (0 < h ∧ 4096 < s.i.toNat + h ∧ exec (.drw x y h) s = .fault (.outOfBounds (max s.i.toNat 4096) s)) := by
  by_cases hfit : h = 0 ∨ s.i.toNat + h ≤ 4096
  · obtain ⟨rows, hr, -⟩ := Memory.readSprite_fits (m := s.mem) hfit
    exact .inl ⟨hfit, rows, hr, exec_drw_eq_drawn hr x y⟩
  · obtain ⟨h0, hle⟩ := not_or.mp hfit
    have hpos := Nat.pos_of_ne_zero h0
    have hover := Nat.not_le.mp hle
    exact .inr ⟨hpos, hover, exec_drw_overruns s x y hpos hover⟩

/-! ### What holds of the state an outcome leaves -/

/-- The state the outcome leaves, next or failed, has the property. -/
def leaves (P : State → Prop) : Outcome → Prop
  | .next t => P t
  | .fault f => P f.left
  | .refused _ => True

section
variable {P : State → Prop} {s : State}

theorem leaves.stateAfter {o : Outcome} {t : State} (h : leaves P o) (ht : stateAfter o = some t) : P t := by
  cases o with
  | next u => exact Option.some.inj ht ▸ h
  | fault f => exact Option.some.inj ht ▸ h
  | refused r => cases ht

theorem raise_leaves (e : Error) (h : P s) : leaves P (raise e s) := by
  obtain ⟨f, hf, -, rfl⟩ := raise_eq_fault e s
  rw [hf]
  exact h

theorem storeBytes_leaves {a : Nat} {bs : List Byte} (h : P (s.setMem (s.mem.writeBytes a bs).1)) :
    leaves P (storeBytes a bs s) := by
  obtain ⟨-, hs⟩ | ⟨-, -, hs⟩ := storeBytes_cases a bs s <;> rw [hs] <;> exact h

theorem loadRegs_leaves (base : Nat) {ks : List Reg} (hP : ∀ t, ∀ r ∈ ks, ∀ b, P t → P (t.setReg r b)) (h : P s) :
    leaves P (loadRegs base ks s) := by
  induction ks generalizing s with
  | nil => exact h
  | cons k ks ih =>
    have ih' := fun t => ih (s := t) fun t r hr => hP t r (List.mem_cons_of_mem k hr)
    cases hr : s.mem.read (base + k.val) with
    | ok b => simpa [loadRegs, hr] using ih' _ (hP s k List.mem_cons_self b h)
    | error e => simpa [loadRegs, hr] using raise_leaves e h

end

/-! ### The writes of an instruction -/

/-- The parts an instruction may change (the column "written by" of 10_state.md R20; `screen` is R116). -/
def writtenParts : Instr → List Part
  | .cls | .drw _ _ _ => [.disp, .screen]
  | .ret | .call _ => [.pc, .stack]
  | .jp _ | .seVxKk _ _ | .sneVxKk _ _ | .seVxVy _ _ | .sneVxVy _ _ | .sknp _ => [.pc]
  | .ldI _ | .addIVx _ | .ldFVx _ => [.i]
  | .ldDtVx _ => [.dt]
  | .ldStVx _ => [.st]
  | .ldBVx _ | .ldMIVx _ => [.mem]
  | .ldVxKk _ _ | .addVxKk _ _ | .ldVxVy _ _ | .or _ _ | .and _ _ | .xor _ _ | .addVxVy _ _ | .sub _ _ | .shr _ _
  | .subn _ _ | .shl _ _ | .rnd _ _ | .ldVxDt _ | .ldVxMI _ => []

/-- The registers an instruction may change, as a list. -/
def writtenRegs (i : Instr) : List Reg := (List.finRange 16).filter (mayWriteReg · i)

theorem mem_writtenRegs {r : Reg} {i : Instr} : r ∈ writtenRegs i ↔ mayWriteReg r i = true := by
  simp [writtenRegs]

/-- The property survives every write the instruction may make. -/
structure KeptByWritesOf (i : Instr) (P : State → Prop) : Prop where
  setReg : ∀ {t r} b, mayWriteReg r i = true → P t → P (t.setReg r b)
  setPc : ∀ {t} a, .pc ∈ writtenParts i → P t → P (t.setPc a)
  setI : ∀ {t} a, .i ∈ writtenParts i → P t → P (t.setI a)
  setStack : ∀ {t} l, .stack ∈ writtenParts i → P t → P (t.setStack l)
  setDt : ∀ {t} b, .dt ∈ writtenParts i → P t → P (t.setDt b)
  setSt : ∀ {t} b, .st ∈ writtenParts i → P t → P (t.setSt b)
  writeBytes : ∀ {t} a bs, .mem ∈ writtenParts i → P t → P (t.setMem (t.mem.writeBytes a bs).1)
  setDisp : ∀ {t} d, .disp ∈ writtenParts i → P t → P (t.setDisp d)
  setScreen : ∀ {t} c, .screen ∈ writtenParts i → P t → P (t.setScreen c)

/-- Whether it completes or fails, execute is a sequence of those writes. -/
theorem exec_leaves {i : Instr} {P : State → Prop} {s : State} (hP : KeptByWritesOf i P) (h : P s) :
    leaves P (exec i s) := by
  cases i with
  | cls => exact hP.setScreen _ (by simp [writtenParts]) (hP.setDisp _ (by simp [writtenParts]) h)
  | ret =>
    cases hs : s.stack with
    | nil =>
      rw [exec_ret_nil s hs]
      exact h
    | cons a rest =>
      rw [exec_ret_cons s hs]
      exact hP.setPc _ (by simp [writtenParts]) (hP.setStack _ (by simp [writtenParts]) h)
  | call nnn =>
    by_cases hd : s.params.stackDepth = some s.stack.length
    · rw [exec_call_full s nnn hd]
      exact h
    · rw [exec_call s nnn hd]
      exact hP.setPc _ (by simp [writtenParts]) (hP.setStack _ (by simp [writtenParts]) h)
  | jp _ | seVxKk _ _ | sneVxKk _ _ | seVxVy _ _ | sneVxVy _ _ | sknp _ =>
    exact hP.setPc _ (by simp [writtenParts]) h
  | ldVxKk x _ | addVxKk x _ | ldVxVy x _ | or x _ | and x _ | xor x _ | rnd x _ | ldVxDt x =>
    exact hP.setReg _ (by simp [mayWriteReg]) h
  | addVxVy x y | sub x y | subn x y =>
    show P (writeResultAndFlag x _ _ s)
    obtain ⟨-, hw⟩ | ⟨-, hw⟩ := writeResultAndFlag_cases s x _ _ <;> rw [hw] <;>
      exact hP.setReg _ (by simp [mayWriteReg]) (hP.setReg _ (by simp [mayWriteReg]) h)
  | shr x y | shl x y => exact hP.setReg _ (by simp [mayWriteReg]) (hP.setReg _ (by simp [mayWriteReg]) h)
  | ldI _ | addIVx _ | ldFVx _ => exact hP.setI _ (by simp [writtenParts]) h
  | drw x y n =>
    obtain ⟨-, rows, -, hs⟩ | ⟨-, -, hs⟩ := exec_drw_cases x y n s <;> rw [hs]
    · exact hP.setScreen _ (by simp [writtenParts])
        (hP.setReg _ (by simp [mayWriteReg]) (hP.setDisp _ (by simp [writtenParts]) h))
    · exact h
  | ldDtVx x => exact hP.setDt _ (by simp [writtenParts]) h
  | ldStVx x => exact hP.setSt _ (by simp [writtenParts]) h
  | ldBVx x => exact storeBytes_leaves (hP.writeBytes _ _ (by simp [writtenParts]) h)
  | ldMIVx x =>
    rw [exec_ldMIVx_eq_storeBytes]
    exact storeBytes_leaves (hP.writeBytes _ _ (by simp [writtenParts]) h)
  | ldVxMI x =>
    rw [exec_ldVxMI]
    refine loadRegs_leaves _ (fun t r hr b => hP.setReg b ?_) h
    exact decide_eq_true ((mem_regsUpTo x r).mp hr)

/-! ### The frame of an instruction -/

theorem sameBut_keptByWritesOf (i : Instr) (s : State) :
    KeptByWritesOf i (s.sameBut (writtenParts i) (writtenRegs i)) where
  setReg b hr h := h.setReg (mem_writtenRegs.mpr hr) b
  setPc a hp h := h.setPc hp a
  setI a hp h := h.setI hp a
  setStack l hp h := h.setStack hp l
  setDt b hp h := h.setDt hp b
  setSt b hp h := h.setSt hp b
  writeBytes _ _ hp h := h.setMem hp _
  setDisp d hp h := h.setDisp hp d
  setScreen c hp h := h.setScreen hp c

/-- An instruction changes only the parts and registers it may write, whether it completes or fails. -/
theorem exec_frame {i : Instr} {s t : State} (ht : stateAfter (exec i s) = some t) :
    s.sameBut (writtenParts i) (writtenRegs i) t :=
  (exec_leaves (sameBut_keptByWritesOf i s) (s.sameBut_refl _ _)).stateAfter ht

section
variable {i : Instr}

theorem disp_mem_writtenParts : .disp ∈ writtenParts i ↔ i = .cls ∨ ∃ x y h, i = .drw x y h := by
  cases i <;> simp [writtenParts]

theorem screen_mem_writtenParts : .screen ∈ writtenParts i ↔ i = .cls ∨ ∃ x y h, i = .drw x y h := by
  cases i <;> simp [writtenParts]

theorem mem_mem_writtenParts : .mem ∈ writtenParts i ↔ ∃ x, i = .ldBVx x ∨ i = .ldMIVx x := by
  cases i <;> simp [writtenParts]

theorem dt_mem_writtenParts : .dt ∈ writtenParts i ↔ ∃ x, i = .ldDtVx x := by
  cases i <;> simp [writtenParts]

theorem st_mem_writtenParts : .st ∈ writtenParts i ↔ ∃ x, i = .ldStVx x := by
  cases i <;> simp [writtenParts]

theorem i_mem_writtenParts : .i ∈ writtenParts i ↔ (∃ nnn, i = .ldI nnn) ∨ ∃ x, i = .addIVx x ∨ i = .ldFVx x := by
  cases i <;> simp [writtenParts]

theorem stack_mem_writtenParts : .stack ∈ writtenParts i ↔ i = .ret ∨ ∃ nnn, i = .call nnn := by
  cases i <;> simp [writtenParts]

end

/-! ### The screen output (40_step_cycle.md R116) -/

/-- An instruction that may write the screen output and completes leaves it Changed. -/
theorem exec_screen_changed {i : Instr} {s t : State} (hi : i = .cls ∨ ∃ x y h, i = .drw x y h)
    (ht : exec i s = .next t) : t.screen = .changed := by
  obtain rfl | ⟨x, y, h, rfl⟩ := hi
  · cases ht
    rfl
  · obtain ⟨-, rows, -, hs⟩ | ⟨-, -, hs⟩ := exec_drw_cases x y h s
    · cases hs.symm.trans ht
      rfl
    · cases hs.symm.trans ht

theorem exec_screen_kept {i : Instr} {s t : State} (hi : ¬ (i = .cls ∨ ∃ x y h, i = .drw x y h))
    (ht : exec i s = .next t) : t.screen = s.screen := by
  obtain ⟨-, -, -, -, -, -, -, -, hscreen, -⟩ := exec_frame (t := t) (congrArg stateAfter ht)
  exact hscreen (mt screen_mem_writtenParts.mp hi)

/-! ### The obligations on frames -/

/-- Settles O15: the screen output is Unchanged when execute begins, and only CLS and DRW write it. -/
theorem screenChangedExactlyForDisplayInstructions : Obligations.ScreenChangedExactlyForDisplayInstructions := by
  intro rb ks s t w i hf hd ht
  rw [stepOp_of_ok hf hd] at ht
  refine ⟨fun hchanged => ?_, fun hi => exec_screen_changed hi ht⟩
  by_contra hi
  rw [exec_screen_kept hi ht] at hchanged
  cases hchanged

/-- Settles O55: the frame of the instruction, read part by part. -/
theorem onlyNamedInstructionsChangeEachPart : Obligations.OnlyNamedInstructionsChangeEachPart := by
  intro i s t ht
  obtain ⟨-, -, hi, hstack, hdt, hst, hmem, hdisp, -, hmodel⟩ := exec_frame ht
  refine ⟨fun hne => disp_mem_writtenParts.mp ?_, fun ⟨a, hne⟩ => mem_mem_writtenParts.mp ?_,
    fun hne => dt_mem_writtenParts.mp ?_, fun hne => st_mem_writtenParts.mp ?_, fun hne => i_mem_writtenParts.mp ?_,
    fun hne => stack_mem_writtenParts.mp ?_, hmodel⟩
  · exact not_imp_comm.mp hdisp hne
  · exact not_imp_comm.mp hmem fun hsame => hne (hsame a)
  · exact not_imp_comm.mp hdt hne
  · exact not_imp_comm.mp hst hne
  · exact not_imp_comm.mp hi hne
  · exact not_imp_comm.mp hstack hne

/-- Settles O56: the frame of the instruction, read at a register. -/
theorem onlyDestinationRegistersChange : Obligations.OnlyDestinationRegistersChange := by
  intro i s t r ht hr
  obtain ⟨hreg, -⟩ := exec_frame ht
  exact hreg r (mt mem_writtenRegs.mp (Bool.eq_false_iff.mp hr))

end Sys2Proof.Machine

/-! PROOFS. How an operation may end (60_exceptions.md R260 to R266): an instruction by the error the rules foresee for it or
by none, a step never by a refusal or by an error of a utility. -/

namespace Sys2Proof.Machine

/-! ### The error of an instruction -/

/-- The outcome is a fault with the given error, or, where none is given, a next state. -/
def endsWith : Option Error → Outcome → Prop
  | none, o => ∃ t, o = .next t
  | some e, o => ∃ f, o = .fault f ∧ f.error = e

theorem storeBytes_endsWith (a : Nat) (bs : List Byte) (s : State) :
    endsWith (accessError a bs.length) (storeBytes a bs s) := by
  obtain ⟨hfit, hs⟩ | ⟨hne, hover, hs⟩ := storeBytes_cases a bs s
  · rw [accessError_fits (hfit.imp_left List.length_eq_zero_iff.mpr)]
    exact ⟨_, hs⟩
  · rw [accessError_overruns (mt List.length_eq_zero_iff.mp hne) hover]
    exact ⟨_, hs, rfl⟩

theorem exec_drw_endsWith (x y : Reg) (h : Nat) (s : State) :
    endsWith (accessError s.i.toNat h) (exec (.drw x y h) s) := by
  obtain ⟨hfit, rows, -, hs⟩ | ⟨h0, hover, hs⟩ := exec_drw_cases x y h s
  · rw [accessError_fits hfit]
    exact ⟨_, hs⟩
  · rw [accessError_overruns h0.ne' hover]
    exact ⟨_, hs, rfl⟩

theorem exec_ldVxMI_endsWith (x : Reg) (s : State) :
    endsWith (accessError s.i.toNat (x.val + 1)) (exec (.ldVxMI x) s) := by
  obtain ⟨v, -, -, hfits, hover⟩ := loadBlock_spec s.i.toNat x s
  rw [exec_ldVxMI]
  by_cases hx : s.i.toNat + x.val < 4096
  · rw [accessError_fits (.inr hx)]
    exact ⟨_, hfits hx⟩
  · rw [accessError_overruns (Nat.succ_ne_zero _) (Nat.lt_succ_of_le (Nat.not_lt.mp hx))]
    exact ⟨_, hover (Nat.not_lt.mp hx), rfl⟩

/-- An instruction ends with the error the rules foresee for its state, and completes where they foresee none. -/
theorem exec_endsWith (i : Instr) (s : State) : endsWith (foreseenError s i) (exec i s) := by
  cases i with
  | ret =>
    cases hs : s.stack with
    | nil => simpa [foreseenError, hs] using ⟨_, exec_ret_nil s hs, rfl⟩
    | cons a rest => simpa [foreseenError, hs] using ⟨_, exec_ret_cons s hs⟩
  | call nnn =>
    by_cases hd : s.params.stackDepth = some s.stack.length
    · simpa [foreseenError, hd] using ⟨_, exec_call_full s nnn hd, rfl⟩
    · simpa [foreseenError, hd] using ⟨_, exec_call s nnn hd⟩
  | drw x y h => exact exec_drw_endsWith x y h s
  | ldBVx x => exact storeBytes_endsWith s.i.toNat (bcd (s.reg x)) s
  | ldMIVx x =>
    rw [exec_ldMIVx_eq_storeBytes, foreseenError, ← s.length_regBlock x]
    exact storeBytes_endsWith _ _ s
  | ldVxMI x => exact exec_ldVxMI_endsWith x s
  | cls | jp _ | seVxKk _ _ | sneVxKk _ _ | seVxVy _ _ | sneVxVy _ _ | sknp _ | ldVxKk _ _ | addVxKk _ _ | ldVxVy _ _
  | or _ _ | and _ _ | xor _ _ | addVxVy _ _ | sub _ _ | subn _ _ | shr _ _ | shl _ _ | rnd _ _ | ldI _ | addIVx _
  | ldFVx _ | ldVxDt _ | ldDtVx _ | ldStVx _ => exact ⟨_, rfl⟩

/-! ### The errors of a step -/

/-- The two errors that only utilities raise (R264, R265). -/
def isUtilityError : Error → Bool
  | .invalidRegisterRange | .invalidBitIndex => true
  | .outOfBounds _ | .unrecognizedInstruction _ | .emptyStack | .stackOverflow => false

/-- The outcome is a next state, or a fault with an error that is no utility's. -/
def endsOrderly (o : Outcome) : Prop :=
  (∃ t, o = .next t) ∨ ∃ f, o = .fault f ∧ isUtilityError f.error = false

theorem raise_endsOrderly {e : Error} (he : isUtilityError e = false) (s : State) : endsOrderly (raise e s) := by
  obtain ⟨f, hf, rfl, -⟩ := raise_eq_fault e s
  exact .inr ⟨f, hf, he⟩

theorem endsWith.endsOrderly {e : Option Error} {o : Outcome} (h : endsWith e o)
    (he : ∀ e' ∈ e, isUtilityError e' = false) : endsOrderly o := by
  cases e with
  | none => exact .inl h
  | some e =>
    obtain ⟨f, hf, rfl⟩ := h
    exact .inr ⟨f, hf, he f.error rfl⟩

theorem accessError_not_utility (a n : Nat) : ∀ e ∈ accessError a n, isUtilityError e = false := by
  unfold accessError
  split <;> simp [isUtilityError]

theorem foreseenError_not_utility (s : State) (i : Instr) : ∀ e ∈ foreseenError s i, isUtilityError e = false := by
  cases i with
  | ret | call _ => simp [foreseenError, isUtilityError]
  | drw x y h => exact accessError_not_utility _ _
  | ldBVx x | ldMIVx x | ldVxMI x => exact accessError_not_utility _ _
  | cls | jp _ | seVxKk _ _ | sneVxKk _ _ | seVxVy _ _ | sneVxVy _ _ | sknp _ | ldVxKk _ _ | addVxKk _ _ | ldVxVy _ _
  | or _ _ | and _ _ | xor _ _ | addVxVy _ _ | sub _ _ | subn _ _ | shr _ _ | shl _ _ | rnd _ _ | ldI _ | addIVx _
  | ldFVx _ | ldVxDt _ | ldDtVx _ | ldStVx _ => exact nofun

theorem fetch_error_not_utility {s : State} {e : Error} (h : fetch s = .error e) : isUtilityError e = false := by
  obtain hlt | hlast | hbeyond : s.pc.toNat + 1 < 4096 ∨ s.pc.toNat = 4095 ∨ 4096 ≤ s.pc.toNat := by omega
  · cases (Memory.read16_of_lt hlt).symm.trans h
  · cases (fetch_of_pc_last hlast).symm.trans h
    rfl
  · cases (Memory.read16_of_le hbeyond).symm.trans h
    rfl

theorem decode_error_not_utility {w : Word} {e : Error} (h : decode w = .error e) : isUtilityError e = false := by
  cases hw : illegalWord w with
  | true =>
    cases (decode_of_illegalWord hw).symm.trans h
    rfl
  | false =>
    obtain ⟨i, hi⟩ := decode_of_legalWord hw
    cases hi.symm.trans h

theorem stepOp_endsOrderly (rb : Byte) (ks : BitVec 16) (s : State) : endsOrderly (stepOp rb ks s) := by
  obtain ⟨w, i, -, -, hs⟩ | ⟨e, he, hs⟩ := stepOp_cases rb ks s <;> rw [hs]
  · exact (exec_endsWith i _).endsOrderly (foreseenError_not_utility _ i)
  · obtain hf | ⟨w, -, hd⟩ := he
    · exact raise_endsOrderly (fetch_error_not_utility hf) s
    · exact raise_endsOrderly (decode_error_not_utility hd) s

theorem perform_endsOrderly (op : HostOp) (s : State) : endsOrderly (perform op s) := by
  cases op with
  | step rb ks => exact stepOp_endsOrderly rb ks s
  | loadFont table => exact (storeBytes_endsWith _ _ s).endsOrderly (accessError_not_utility _ _)
  | loadProgram bytes => exact (storeBytes_endsWith _ _ s).endsOrderly (accessError_not_utility _ _)
  | reset | initPc | tick => exact .inl ⟨_, rfl⟩

/-- A step is one operation of the host, from a state that differs in the agenda and the index of the free inputs only. -/
theorem step_eq_perform (s : State) : ∃ op rest n, step s = perform op ((s.setAgenda rest).setTurn n) := by
  cases h : s.agenda with
  | nil => exact ⟨.step _ _, s.agenda, s.turn + 1, step_of_agenda_nil h⟩
  | cons op rest => exact ⟨op, rest, s.turn, step_of_agenda_cons h⟩

theorem step_endsOrderly (s : State) : endsOrderly (step s) := by
  obtain ⟨op, rest, n, hs⟩ := step_eq_perform s
  rw [hs]
  exact perform_endsOrderly op _

/-! ### The obligations -/

/-- Settles O52: the law of execute, where no error is foreseen and where one is. -/
theorem instructionCompletesUnlessErrorForeseen : Obligations.InstructionCompletesUnlessErrorForeseen := by
  intro i s
  have hends := exec_endsWith i s
  refine ⟨fun h => ?_, fun e h => ?_⟩ <;> rw [h] at hends <;> exact hends

/-- Settles O53: a step completes or ends in a fault. -/
theorem nothingIsRefused : Obligations.NothingIsRefused := by
  intro s r hr
  obtain ⟨t, h⟩ | ⟨f, h, -⟩ := step_endsOrderly s <;> cases hr.symm.trans h

/-- Settles O54: the two utilities test their arguments, and no step's fault has one of their errors. -/
theorem utilityErrorsNeverLeaveTheBlock : Obligations.UtilityErrorsNeverLeaveTheBlock := by
  refine ⟨fun a b hab => if_pos hab, fun b n hn => if_neg (Nat.not_lt.mpr hn), fun s f hf => ?_⟩
  obtain ⟨t, h⟩ | ⟨f', h, hutility⟩ := step_endsOrderly s
  · cases hf.symm.trans h
  · cases hf.symm.trans h
    constructor <;> intro he <;> simp [he, isUtilityError] at hutility

end Sys2Proof.Machine

/-! PROOFS. The invariant of reachable states (10_state.md R27, 20_memory.md, 60_exceptions.md R268): memory, `PC`, the stack
and its depth, each by its own law of execute, then every operation of the host. -/

namespace Sys2Proof.Machine

/-! ### What execute leaves of each clause -/

section
variable {i : Instr} {s t : State}

theorem memWf_keptByWritesOf (i : Instr) : KeptByWritesOf i fun t => t.mem.wf where
  setReg _ _ h := h
  setPc _ _ h := h
  setI _ _ h := h
  setStack _ _ h := h
  setDt _ _ h := h
  setSt _ _ h := h
  writeBytes _ _ _ h := Memory.writeBytes_wf h
  setDisp _ _ h := h
  setScreen _ _ h := h

theorem exec_mem_wf (h : s.mem.wf) (ht : stateAfter (exec i s) = some t) : t.mem.wf :=
  (exec_leaves (memWf_keptByWritesOf i) h).stateAfter ht

theorem addrWord_le (nnn : Addr) : (addrWord nnn).toNat ≤ 4096 := by
  rw [toNat_addrWord]
  exact Nat.le_of_lt nnn.isLt

/-- From an advanced `PC` of at most 4096 a skip reaches 4098 at most, and every other target is an address (R27). -/
theorem pcAfter_le (hpc : s.pc.toNat ≤ 4096) (hstack : ∀ a ∈ s.stack, a.toNat ≤ 4096) :
    (pcAfter s i).toNat ≤ 4098 := by
  have hskip : (s.pc + 2).toNat ≤ 4098 := by
    rw [BitVec.toNat_add]
    exact (Nat.mod_le _ _).trans (Nat.add_le_add_right hpc 2)
  unfold pcAfter
  split
  next nnn => exact (addrWord_le nnn).trans (by decide)
  next nnn => exact (addrWord_le nnn).trans (by decide)
  next =>
    cases hs : s.stack with
    | nil => exact hpc.trans (by decide)
    | cons a rest => exact (hstack a (by simp [hs])).trans (by decide)
  next =>
    split
    · exact hskip
    · exact hpc.trans (by decide)

theorem leavesPc.pc_or {a p : Word} {o : Outcome} (h : leavesPc a p o) (ht : stateAfter o = some t) :
    t.pc = a ∨ t.pc = p := by
  cases o with
  | next u => exact .inl (Option.some.inj ht ▸ h)
  | fault f => exact .inr (Option.some.inj ht ▸ h)
  | refused r => cases ht

theorem exec_pc_le (hpc : s.pc.toNat ≤ 4096) (hstack : ∀ a ∈ s.stack, a.toNat ≤ 4096)
    (ht : stateAfter (exec i s) = some t) : t.pc.toNat ≤ 4098 := by
  obtain h | h := (exec_leavesPc i s).pc_or ht <;> rw [h]
  · exact pcAfter_le hpc hstack
  · exact hpc.trans (by decide)

/-- The stack is as before, has lost its top, or has `PC` on top where the depth allowed one more (R131, R133). -/
theorem exec_stack_cases (ht : stateAfter (exec i s) = some t) :
    t.stack = s.stack ∨ (∃ a, s.stack = a :: t.stack) ∨
      t.stack = s.pc :: s.stack ∧ s.params.stackDepth ≠ some s.stack.length := by
  by_cases hi : .stack ∈ writtenParts i
  · obtain rfl | ⟨nnn, rfl⟩ := stack_mem_writtenParts.mp hi
    · cases hs : s.stack with
      | nil =>
        rw [exec_ret_nil s hs] at ht
        cases ht
        exact .inl hs
      | cons a rest =>
        rw [exec_ret_cons s hs] at ht
        cases ht
        exact .inr (.inl ⟨a, rfl⟩)
    · by_cases hd : s.params.stackDepth = some s.stack.length
      · rw [exec_call_full s nnn hd] at ht
        cases ht
        exact .inl rfl
      · rw [exec_call s nnn hd] at ht
        cases ht
        exact .inr (.inr ⟨rfl, hd⟩)
  · obtain ⟨-, -, -, hstack, -⟩ := exec_frame ht
    exact .inl (hstack hi)

theorem exec_stack_le (hpc : s.pc.toNat ≤ 4096) (hstack : ∀ a ∈ s.stack, a.toNat ≤ 4096)
    (ht : stateAfter (exec i s) = some t) : ∀ a ∈ t.stack, a.toNat ≤ 4096 := by
  obtain h | ⟨b, h⟩ | ⟨h, -⟩ := exec_stack_cases ht
  · rwa [h]
  · exact fun a ha => hstack a (h ▸ List.mem_cons_of_mem b ha)
  · rw [h, List.forall_mem_cons]
    exact ⟨hpc, hstack⟩

theorem depthOk_iff : s.depthOk = true ↔ ∀ n, s.params.stackDepth = some n → s.stack.length ≤ n := by
  unfold State.depthOk
  split
  next h => simp [h]
  next n h => simp [h]

theorem exec_params (ht : stateAfter (exec i s) = some t) : t.params = s.params := by
  obtain ⟨-, -, -, -, -, -, -, -, -, hparams, -⟩ := exec_frame ht
  exact hparams

theorem exec_depthOk (h : s.depthOk = true) (ht : stateAfter (exec i s) = some t) : t.depthOk = true := by
  rw [depthOk_iff] at h ⊢
  rw [exec_params ht]
  intro n hn
  have hle := h n hn
  obtain hst | ⟨a, hst⟩ | ⟨hst, hroom⟩ := exec_stack_cases ht
  · rwa [hst]
  · rw [hst, List.length_cons] at hle
    exact Nat.le_of_succ_le hle
  · have hne : s.stack.length ≠ n := fun e => hroom (e ▸ hn)
    rw [hst, List.length_cons]
    exact Nat.lt_of_le_of_ne hle hne

end

/-! ### The operations of the host -/

section
variable {s t : State}

/-- The advanced `PC` of a successful fetch is at most 4096, so execute keeps the invariant. -/
theorem exec_beginExecute_inv {w : Word} {i : Instr} {rb : Byte} {ks : BitVec 16} (h : s.Inv) (hf : fetch s = .ok w)
    (ht : stateAfter (exec i (beginExecute rb ks s)) = some t) : t.Inv := by
  obtain ⟨hmem, -, hstack, hdepth, hparams⟩ := h
  have hpc : (beginExecute rb ks s).pc.toNat ≤ 4096 := by
    obtain ⟨hadd, hle⟩ := pc_advance_of_fetch hf
    rw [beginExecute_pc, hadd]
    exact Nat.add_le_add_right hle 2
  refine ⟨exec_mem_wf (s := beginExecute rb ks s) hmem ht, exec_pc_le hpc hstack ht, exec_stack_le hpc hstack ht,
    exec_depthOk (s := beginExecute rb ks s) hdepth ht, ?_⟩
  rwa [exec_params ht]

theorem stepOp_inv {rb : Byte} {ks : BitVec 16} (h : s.Inv) (ht : stateAfter (stepOp rb ks s) = some t) : t.Inv := by
  obtain ⟨w, i, hf, -, hs⟩ | ⟨e, -, hs⟩ := stepOp_cases rb ks s <;> rw [hs] at ht
  · exact exec_beginExecute_inv h hf ht
  · exact (raise_leaves e h).stateAfter ht

theorem storeBytes_inv {a : Nat} {bs : List Byte} (h : s.Inv) (ht : stateAfter (storeBytes a bs s) = some t) :
    t.Inv := by
  obtain ⟨hmem, hrest⟩ := h
  exact (storeBytes_leaves (P := State.Inv) ⟨Memory.writeBytes_wf hmem, hrest⟩).stateAfter ht

theorem resetWith_inv {p : Params} (h : p.wf) : (State.resetWith p).Inv := by
  refine ⟨⟨List.Pairwise.nil, nofun⟩, ?_, nofun, ?_, h⟩
  · exact (addrWord_le p.programBase).trans (by decide)
  · exact depthOk_iff.mpr fun n _ => Nat.zero_le n

theorem State.Inv.setPc_addrWord (h : s.Inv) (a : Addr) : (s.setPc (addrWord a)).Inv := by
  obtain ⟨hmem, -, hrest⟩ := h
  exact ⟨hmem, (addrWord_le a).trans (by decide), hrest⟩

theorem perform_inv {op : HostOp} (h : s.Inv) (ht : stateAfter (perform op s) = some t) : t.Inv := by
  cases op with
  | reset =>
    obtain ⟨-, -, -, -, hparams⟩ := h
    cases ht
    exact resetWith_inv hparams
  | loadFont table => exact storeBytes_inv h ht
  | loadProgram bytes => exact storeBytes_inv h ht
  | initPc =>
    cases ht
    exact h.setPc_addrWord s.params.programBase
  | step rb ks => exact stepOp_inv h ht
  | tick =>
    cases ht
    exact h

theorem step_inv (h : s.Inv) (ht : stateAfter (step s) = some t) : t.Inv := by
  obtain ⟨op, rest, n, hs⟩ := step_eq_perform s
  rw [hs] at ht
  exact perform_inv (s := (s.setAgenda rest).setTurn n) h ht

end

/-! ### The obligations -/

/-- Settles O49: the next state of a step is a state it leaves. -/
theorem stepKeepsInvariant : Obligations.StepKeepsInvariant := fun _ _ h hs => step_inv h (congrArg stateAfter hs)

/-- Settles O50: the state of a fault is a state the step leaves. -/
theorem faultLeavesInvariant : Obligations.FaultLeavesInvariant := fun _ _ h hs => step_inv h (congrArg stateAfter hs)

/-- Settles O51: the reset state of any legal parameters meets the invariant, and the default ones are legal. -/
theorem resetMeetsInvariant : Obligations.ResetMeetsInvariant := resetWith_inv (by decide)

end Sys2Proof.Machine

/-! PROOFS. What execute does not look at (40_step_cycle.md R114, 42_load_alu.md R163): it commutes with every change of the
state that no read sees and no write touches, so with a change of the inputs and of the order of the two writes. -/

namespace Sys2Proof.Machine

/-! ### Changes execute does not see -/

/-- The change keeps what every instruction may read, and commutes with what an instruction may write. The inputs and the
order of the two writes are left out: a few instructions read them. -/
structure Unseen (g : State → State) : Prop where
  reg : ∀ s r, (g s).reg r = s.reg r
  pc : ∀ s, (g s).pc = s.pc
  i : ∀ s, (g s).i = s.i
  stack : ∀ s, (g s).stack = s.stack
  dt : ∀ s, (g s).dt = s.dt
  mem : ∀ s, (g s).mem = s.mem
  disp : ∀ s, (g s).disp = s.disp
  stackDepth : ∀ s, (g s).params.stackDepth = s.params.stackDepth
  fontBase : ∀ s, (g s).params.fontBase = s.params.fontBase
  setReg : ∀ s r b, (g s).setReg r b = g (s.setReg r b)
  setPc : ∀ s a, (g s).setPc a = g (s.setPc a)
  setI : ∀ s a, (g s).setI a = g (s.setI a)
  setStack : ∀ s l, (g s).setStack l = g (s.setStack l)
  setDt : ∀ s b, (g s).setDt b = g (s.setDt b)
  setSt : ∀ s b, (g s).setSt b = g (s.setSt b)
  setDisp : ∀ s d, (g s).setDisp d = g (s.setDisp d)
  setScreen : ∀ s c, (g s).setScreen c = g (s.setScreen c)
  storeBytes : ∀ s a bs, storeBytes a bs (g s) = mapOutcome g (storeBytes a bs s)
  loadRegs : ∀ s base ks, loadRegs base ks (g s) = mapOutcome g (loadRegs base ks s)

theorem withInputs_unseen (rb : Byte) (ks : BitVec 16) : Unseen fun s => s.withInputs rb ks := by
  constructor
  case storeBytes => exact fun s => storeBytes_withInputs s rb ks
  case loadRegs => exact fun s => loadRegs_withInputs s rb ks
  all_goals
    intros
    rfl

theorem withVfOrder_unseen (o : VfOrder) : Unseen fun s => s.withVfOrder o := by
  constructor
  case storeBytes => exact fun s => storeBytes_withVfOrder s o
  case loadRegs => exact fun s => loadRegs_withVfOrder s o
  all_goals
    intros
    rfl

/-- Execute commutes with an unseen change, provided RND finds its random byte, SKNP its keys and the three instructions of
R163 their order. -/
theorem exec_unseen {g : State → State} (hg : Unseen g) (i : Instr) (s : State)
    (hrnd : ∀ x kk, i = .rnd x kk → (g s).randomByte = s.randomByte)
    (hsknp : ∀ x, i = .sknp x → (g s).keys = s.keys)
    (hflag : ∀ x y, (i = .addVxVy x y ∨ i = .sub x y ∨ i = .subn x y) → ∀ res f,
      writeResultAndFlag x res f (g s) = g (writeResultAndFlag x res f s)) :
    exec i (g s) = mapOutcome g (exec i s) := by
  cases i with
  | cls => simp only [exec_cls, hg.setDisp, hg.setScreen, mapOutcome]
  | ret =>
    have hstack := hg.stack s
    cases hs : s.stack with
    | nil => rw [exec_ret_nil s hs, exec_ret_nil _ (hstack.trans hs), mapOutcome, Fault.mapLeft]
    | cons a rest =>
      rw [exec_ret_cons s hs, exec_ret_cons _ (hstack.trans hs), hg.setStack, hg.setPc, mapOutcome]
  | call nnn =>
    by_cases hd : s.params.stackDepth = some s.stack.length
    · rw [exec_call_full s nnn hd, exec_call_full _ nnn (by rw [hg.stackDepth, hg.stack, hd]), mapOutcome,
        Fault.mapLeft]
    · rw [exec_call s nnn hd, exec_call _ nnn (by rwa [hg.stackDepth, hg.stack]), hg.pc, hg.stack, hg.setStack,
        hg.setPc, mapOutcome]
  | jp _ | seVxKk _ _ | sneVxKk _ _ | seVxVy _ _ | sneVxVy _ _ =>
    simp only [exec_jp, exec_seVxKk, exec_sneVxKk, exec_seVxVy, exec_sneVxVy, hg.reg, hg.pc, hg.setPc, mapOutcome]
  | sknp x => simp only [exec_sknp, hsknp x rfl, hg.reg, hg.pc, hg.setPc, mapOutcome]
  | ldVxKk _ _ | addVxKk _ _ | ldVxVy _ _ | or _ _ | and _ _ | xor _ _ | shr _ _ | shl _ _ | ldVxDt _ =>
    simp only [exec_ldVxKk, exec_addVxKk, exec_ldVxVy, exec_or, exec_and, exec_xor, exec_shr, exec_shl, exec_ldVxDt,
      hg.reg, hg.dt, hg.setReg, mapOutcome]
  | rnd x kk => simp only [exec_rnd, hrnd x kk rfl, hg.setReg, mapOutcome]
  | addVxVy x y => simp only [exec_addVxVy, hg.reg, hflag x y (.inl rfl), mapOutcome]
  | sub x y => simp only [exec_sub, hg.reg, hflag x y (.inr (.inl rfl)), mapOutcome]
  | subn x y => simp only [exec_subn, hg.reg, hflag x y (.inr (.inr rfl)), mapOutcome]
  | ldI _ | addIVx _ | ldFVx _ =>
    simp only [exec_ldI, exec_addIVx, exec_ldFVx, hg.reg, hg.i, hg.fontBase, hg.setI, mapOutcome]
  | ldDtVx x => simp only [exec_ldDtVx, hg.reg, hg.setDt, mapOutcome]
  | ldStVx x => simp only [exec_ldStVx, hg.reg, hg.setSt, mapOutcome]
  | ldBVx x => rw [exec_ldBVx, exec_ldBVx, hg.reg, hg.i, hg.storeBytes]
  | ldMIVx x => rw [exec_ldMIVx, exec_ldMIVx, hg.i, hg.storeBytes, funext (hg.reg s)]
  | ldVxMI x => rw [exec_ldVxMI, exec_ldVxMI, hg.i, hg.loadRegs]
  | drw x y h =>
    obtain ⟨-, rows, hr, hs⟩ | ⟨h0, hover, hs⟩ := exec_drw_cases x y h s
    · have hr' : (g s).mem.readSprite (g s).i.toNat h = .ok rows := by rw [hg.mem, hg.i, hr]
      rw [hs, exec_drw_eq_drawn hr']
      simp only [State.drawn, hg.reg, hg.disp, hg.setDisp, hg.setReg, hg.setScreen, mapOutcome]
    · rw [hs, exec_drw_overruns _ x y h0 (by rwa [hg.i]), hg.i, mapOutcome, Fault.mapLeft]

/-! ### The two writes of R163 -/

theorem writeResultAndFlag_withInputs (x : Reg) (res : Byte) (f : Bool) (s : State) (rb : Byte) (ks : BitVec 16) :
    writeResultAndFlag x res f (s.withInputs rb ks) = (writeResultAndFlag x res f s).withInputs rb ks := by
  unfold writeResultAndFlag
  rw [State.withInputs_params]
  split <;> rfl

/-- "For `x` from 0 to 0xE the two orders give the same state" (R163). -/
theorem writeResultAndFlag_of_ne_vf {x : Reg} (hx : x ≠ Reg.vf) (res : Byte) (f : Bool) (s : State) :
    writeResultAndFlag x res f s = (s.setReg Reg.vf (flagByte f)).setReg x res := by
  obtain ⟨-, h⟩ | ⟨-, h⟩ := writeResultAndFlag_cases s x res f
  · exact h
  · rw [h, State.setReg_comm s hx]

/-! ### The obligations -/

/-- Settles O57: a change of one input keeps the other, so only the reader of the changed one can see it. -/
theorem inputsReadOnlyByRandomAndKeySkip : Obligations.InputsReadOnlyByRandomAndKeySkip := by
  refine fun i s rb ks => ⟨fun hi => ?_, fun hi => ?_⟩
  · exact exec_unseen (withInputs_unseen rb s.keys) i s (fun x kk h => absurd h (hi x kk)) (fun _ _ => rfl)
      fun x _ _ res f => writeResultAndFlag_withInputs x res f s rb s.keys
  · exact exec_unseen (withInputs_unseen s.randomByte ks) i s (fun _ _ _ => rfl) (fun x h => absurd h (hi x))
      fun x _ _ res f => writeResultAndFlag_withInputs x res f s s.randomByte ks

/-- Settles O29: with a destination other than VF the two orders write the same, and no other instruction looks at the
order. -/
theorem vfOrderMattersOnlyForVfDestination : Obligations.VfOrderMattersOnlyForVfDestination := by
  intro i s o hi
  refine exec_unseen (withVfOrder_unseen o) i s (fun _ _ _ => rfl) (fun _ _ => rfl) fun x y hxy res f => ?_
  have hx : x ≠ Reg.vf := by
    rintro rfl
    obtain ⟨hadd, hsub, hsubn⟩ := hi y
    exact hxy.elim hadd (·.elim hsub hsubn)
  rw [writeResultAndFlag_of_ne_vf hx, writeResultAndFlag_of_ne_vf hx]
  rfl

end Sys2Proof.Machine

/-! PROOFS. Memory instructions and the loads of the host (20_memory.md R54, R55, R66; 43_index_memory.md R184 to R187;
46_host_operations.md R241, R242): each is one bulk store, one block load or one sprite read, whose laws settle it. -/

namespace Sys2Proof.Machine

/-! ### Bulk stores -/

/-- What a bulk write leaves, whether it completes or fails (R54). -/
theorem State.stored_writeBytes {s : State} (hwf : s.mem.wf) (a : Nat) (bs : List Byte) :
    s.stored a bs (s.setMem (s.mem.writeBytes a bs).1) :=
  ⟨fun _ _ hk hlt => Memory.read_writeBytes_inside hwf hk hlt, fun _ hc => Memory.read_writeBytes_outside hc⟩

/-- The digits of `Fx33`, most significant first (43_index_memory.md R184). -/
theorem bcd_digits {v : Nat} (h : v < 256) :
    v / 100 ≤ 2 ∧ v / 10 % 10 ≤ 9 ∧ v % 10 ≤ 9 ∧ 100 * (v / 100) + 10 * (v / 10 % 10) + v % 10 = v := by
  omega

/-! ### Block loads -/

/-- Replacing the registers as a whole changes nothing else. -/
theorem State.sameBut_registers (s : State) (v : Vector Byte 16) : s.sameBut [] (List.finRange 16) { s with v := v } := by
  simp [State.sameBut]

theorem lt_of_exec_ldMIVx_next {s t : State} {x : Reg} (h : exec (.ldMIVx x) s = .next t) :
    s.i.toNat + x.val < 4096 := by
  by_contra hover
  rw [exec_ldMIVx_overruns (Nat.not_lt.mp hover)] at h
  cases h

theorem eq_dumped_of_exec_ldMIVx_next {s t : State} {x : Reg} (h : exec (.ldMIVx x) s = .next t) : t = s.dumped x := by
  rw [exec_ldMIVx_fits (lt_of_exec_ldMIVx_next h)] at h
  cases h
  rfl

/-- LD [I], Vx leaves `V[k]` at `I + k` wherever it completes. -/
theorem read_of_exec_ldMIVx_next {s t : State} {x k : Reg} (hwf : s.mem.wf) (h : exec (.ldMIVx x) s = .next t)
    (hk : k ≤ x) : t.mem.read (s.i.toNat + k.val) = .ok (s.reg k) := by
  have hlt : s.i.toNat + k.val < 4096 := (Nat.add_le_add_left hk _).trans_lt (lt_of_exec_ldMIVx_next h)
  rw [eq_dumped_of_exec_ldMIVx_next h]
  exact State.dumped_read_inside hwf hk hlt

/-! ### The instructions -/

/-- Settles O34: the block load of `V0` to `V[x]`, with the registers it leaves. -/
theorem loadReadsRegisterBlock : Obligations.LoadReadsRegisterBlock := by
  intro s x
  obtain ⟨v, hread, hkept, hfits, hover⟩ := loadBlock_spec s.i.toNat x s
  rw [← exec_ldVxMI] at hfits hover
  exact ⟨{ s with v := v }, hfits, hover, hread, hkept, s.sameBut_registers v⟩

/-- LD Vx, [I] reads `V[k]` from `I + k` wherever it completes. -/
theorem read_of_exec_ldVxMI_next {s t : State} {x k : Reg} (h : exec (.ldVxMI x) s = .next t) (hk : k ≤ x) :
    s.mem.read (s.i.toNat + k.val) = .ok (t.reg k) := by
  obtain ⟨u, hfits, hover, hread, -⟩ := loadReadsRegisterBlock s x
  by_cases hx : s.i.toNat + x.val < 4096
  · cases (hfits hx).symm.trans h
    exact hread k hk ((Nat.add_le_add_left hk _).trans_lt hx)
  · cases (hover (Nat.not_lt.mp hx)).symm.trans h

/-- Settles O35: what the load reads at `I + k` is what the dump left there. -/
theorem loadAfterDumpRestores : Obligations.LoadAfterDumpRestores := by
  intro s t u r x hwf hdump hmem hi hload k hk
  have hread := read_of_exec_ldVxMI_next hload hk
  rw [hmem, hi, read_of_exec_ldMIVx_next hwf hdump hk] at hread
  exact (Except.ok.inj hread).symm

theorem fetch_of_read {s : State} {hi lo : Byte} (hhi : s.mem.read s.pc.toNat = .ok hi)
    (hlo : s.mem.read (s.pc.toNat + 1) = .ok lo) : fetch s = .ok (wordOfBytes hi lo) := by
  simp only [fetch, Memory.read16, hhi, hlo]

/-- Settles O36: the fetch reads the bytes the dump left at `PC` and `PC + 1`. -/
theorem storeIntoCodeIsFetched : Obligations.StoreIntoCodeIsFetched := by
  intro s t x hwf hx hi hdump
  have hpc : s.i = t.pc := hi.trans (exec_next_pc hdump).symm
  have hhi := read_of_exec_ldMIVx_next hwf hdump (k := 0) (Fin.zero_le x)
  have hlo := read_of_exec_ldMIVx_next hwf hdump (k := 1) hx
  rw [hpc] at hhi hlo
  rw [← wordOfBytes_eq_or]
  exact fetch_of_read hhi hlo

/-- Settles O32: the digits of the register, stored in one bulk write of three bytes. -/
theorem bcdStoresDigits : Obligations.BcdStoresDigits := by
  intro s x hwf
  obtain ⟨hh, ht, ho, hvalue⟩ := bcd_digits (s.reg x).isLt
  refine ⟨_, _, _, hh, ht, ho, hvalue, fun hfit => ?_, fun hover => ?_⟩
  · exact ⟨_, storeBytes_fits s (.inr hfit), s.sameBut_setMem _, State.stored_writeBytes hwf _ (bcd (s.reg x))⟩
  · exact ⟨_, storeBytes_overruns s (List.cons_ne_nil _ _) (Nat.lt_succ_of_le hover), s.sameBut_setMem _,
      State.stored_writeBytes hwf _ (bcd (s.reg x))⟩

/-- Settles O10: the two cases of the sprite read, and that DRW raises the error of a failing one in the state it began in. -/
theorem spriteReadIsWholeBeforeDrawing : Obligations.SpriteReadIsWholeBeforeDrawing := fun s x y _ =>
  ⟨Memory.readSprite_fits, fun h0 hover => ⟨Memory.readSprite_overruns h0 hover, exec_drw_overruns s x y h0 hover⟩⟩

/-! ### The loads of the host -/

theorem perform_loadFont {s : State} (table : Vector Byte 80) (h : s.params.wf) : perform (.loadFont table) s =
    .next (s.setMem (s.mem.writeBytes s.params.fontBase.toNat table.toList).1) :=
  storeBytes_fits s (.inr (by simpa using h))

theorem perform_loadProgram {s : State} {bytes : List Byte} (h : s.params.programBase.toNat + bytes.length ≤ 4096) :
    perform (.loadProgram bytes) s =
      .next (s.setMem (s.mem.writeBytes s.params.programBase.toNat bytes).1) :=
  storeBytes_fits s (.inr h)

/-- `PROGRAM_BASE` is an address, so the first address without a place is 4096. -/
theorem perform_loadProgram_overruns {s : State} {bytes : List Byte}
    (h : 4096 < s.params.programBase.toNat + bytes.length) : perform (.loadProgram bytes) s =
      .fault (.outOfBounds 4096 (s.setMem (s.mem.writeBytes s.params.programBase.toNat bytes).1)) := by
  have hbase : s.params.programBase.toNat < 4096 := s.params.programBase.isLt
  have hne : bytes ≠ [] := by
    rintro rfl
    exact absurd h (Nat.not_lt.mpr hbase.le)
  have hs := storeBytes_overruns s hne h
  rwa [Nat.max_eq_right hbase.le] at hs

theorem getElem?_toList_table {table : Vector Byte 80} {k : Nat} (h : k < 80) : table.toList[k]? = some table[k] := by
  simp [h]

/-- The font table reads back where LOAD_FONT put it. -/
theorem read_font {s t : State} {table : Vector Byte 80} (hp : s.params.wf)
    (ht : s.stored s.params.fontBase.toNat table.toList t) {k : Nat} (h : k < 80) :
    t.mem.read (s.params.fontBase.toNat + k) = .ok table[k] :=
  ht.1 k _ (getElem?_toList_table h) ((Nat.add_lt_add_left h _).trans_le hp)

/-- Settles O45: a bulk write of the table, which fits. -/
theorem loadFontReproducesTable : Obligations.LoadFontReproducesTable := by
  intro s table hwf hp
  have hstored := State.stored_writeBytes hwf s.params.fontBase.toNat table.toList
  refine ⟨_, perform_loadFont table hp, s.sameBut_setMem _, fun k h => read_font hp hstored h, fun c hc => ?_⟩
  exact hstored.2 c (by rwa [Vector.length_toList])

/-- Settles O46: a bulk write of the image, in both its cases. -/
theorem loadProgramStoresImage : Obligations.LoadProgramStoresImage := fun s bytes hwf =>
  ⟨_, s.sameBut_setMem _, State.stored_writeBytes hwf s.params.programBase.toNat bytes, perform_loadProgram,
    perform_loadProgram_overruns⟩

/-! ### The boot sequence (70_reset_and_hazards.md R302) -/

/-- A step that performs the oldest operation of the agenda, as the first of several steps. -/
theorem run_setAgenda_cons {s t : State} {op : HostOp} {rest : List HostOp} (k : Nat)
    (h : perform op (s.setAgenda rest) = .next t) :
    Host.Core.run Sys2Proof.core (k + 1) (s.setAgenda (op :: rest)) = Host.Core.run Sys2Proof.core k t :=
  run_succ_of_next k ((step_of_agenda_cons rfl).trans h)

/-- The state RESET and LOAD_FONT leave. -/
def State.withFont (s : State) : State :=
  (hostReset s).setMem ((hostReset s).mem.writeBytes s.params.fontBase.toNat s.params.glyphTable.toList).1

/-- The state RESET, LOAD_FONT and LOAD_PROGRAM leave. -/
def State.withProgram (s : State) (program : List Byte) : State :=
  s.withFont.setMem (s.withFont.mem.writeBytes s.params.programBase.toNat program).1

theorem hostReset_mem_wf (s : State) : (hostReset s).mem.wf := ⟨List.Pairwise.nil, nofun⟩

theorem State.stored_withFont (s : State) :
    (hostReset s).stored s.params.fontBase.toNat s.params.glyphTable.toList s.withFont :=
  State.stored_writeBytes (hostReset_mem_wf s) _ _

theorem State.stored_withProgram (s : State) (program : List Byte) :
    s.withFont.stored s.params.programBase.toNat program (s.withProgram program) :=
  State.stored_writeBytes (s := s.withFont) (Memory.writeBytes_wf (hostReset_mem_wf s)) _ _

/-- Each operation leaves the agenda's rest beside what it does; INIT_PC finds `PC` where RESET put it. -/
theorem run_bootOps {s : State} {program : List Byte} (hp : s.params.wf)
    (hfit : s.params.programBase.toNat + program.length ≤ 4096) :
    Host.Core.run Sys2Proof.core 4 (s.setAgenda (bootOps s.params program)) =
      .next ((s.withProgram program).setAgenda []) := by
  have hfont : perform (.loadFont s.params.glyphTable) ((hostReset s).setAgenda [.loadProgram program, .initPc]) =
      .next (s.withFont.setAgenda [.loadProgram program, .initPc]) := perform_loadFont _ hp
  have hprogram : perform (.loadProgram program) (s.withFont.setAgenda [.initPc]) =
      .next ((s.withProgram program).setAgenda [.initPc]) := perform_loadProgram hfit
  have hinit : perform .initPc ((s.withProgram program).setAgenda []) = .next ((s.withProgram program).setAgenda []) :=
    perform_initPc_eq_self rfl
  calc Host.Core.run Sys2Proof.core 4 (s.setAgenda (bootOps s.params program))
    _ = Host.Core.run Sys2Proof.core 3
          ((hostReset s).setAgenda [.loadFont s.params.glyphTable, .loadProgram program, .initPc]) :=
        run_setAgenda_cons 3 rfl
    _ = Host.Core.run Sys2Proof.core 2 (s.withFont.setAgenda [.loadProgram program, .initPc]) :=
        run_setAgenda_cons 2 hfont
    _ = Host.Core.run Sys2Proof.core 1 ((s.withProgram program).setAgenda [.initPc]) := run_setAgenda_cons 1 hprogram
    _ = .next ((s.withProgram program).setAgenda []) := run_setAgenda_cons 0 hinit

/-- Settles O48: the program is stored last, so it reads back whole, and the font wherever the program does not lie. -/
theorem bootLoadsProgramAndFont : Obligations.BootLoadsProgramAndFont := by
  intro s program hp hfit
  obtain ⟨hbytes, hother⟩ := s.stored_withProgram program
  refine ⟨_, run_bootOps hp hfit, toNat_addrWord s.params.programBase, rfl, fun k b hk => ?_, fun k h hc => ?_⟩
  · have hlt : k < program.length := (List.getElem?_eq_some_iff.mp hk).1
    exact hbytes k b hk ((Nat.add_lt_add_left hlt _).trans_le hfit)
  · exact (hother _ hc).trans (read_font (s := hostReset s) hp s.stored_withFont h)

end Sys2Proof.Machine

/-! PROOFS. The display instructions (44_display.md R201 to R206), from the law of the blitter: it flips exactly the pixels
it visits and reports whether one of them was on. -/

namespace Sys2Proof.Machine

/-! ### The blitter -/

theorem blit_report {x0 y0 : Nat} {rows : List Byte} {d : Display} :
    (blit x0 y0 rows d).2 = true ↔ ∃ x y, Visited x0 y0 rows x y ∧ d.pixel x y = true := by
  simpa using (blit_flipsExactly x0 y0 rows d).report

theorem blit_blit_display (d : Display) (x0 y0 : Nat) (rows : List Byte) :
    (blit x0 y0 rows (blit x0 y0 rows d).1).1 = d := by
  have hfirst := blit_flipsExactly x0 y0 rows d
  have hsecond := blit_flipsExactly x0 y0 rows (blit x0 y0 rows d).1
  refine Display.eq_of_pixel_eq fun x y _ _ => ?_
  by_cases hv : Visited x0 y0 rows x y
  · rw [hsecond.flipped x y hv, hfirst.flipped x y hv, Bool.not_not]
  · rw [hsecond.kept x y hv, hfirst.kept x y hv]

/-- A sprite that visits no pixel leaves the display and reports No. -/
theorem blit_of_not_visited {x0 y0 : Nat} {rows : List Byte} (hv : ∀ x y, ¬ Visited x0 y0 rows x y) (d : Display) :
    blit x0 y0 rows d = (d, false) := by
  have hdisp : (blit x0 y0 rows d).1 = d :=
    Display.eq_of_pixel_eq fun x y _ _ => (blit_flipsExactly x0 y0 rows d).kept x y (hv x y)
  have hreport : (blit x0 y0 rows d).2 = false :=
    Bool.eq_false_iff.mpr fun h =>
      let ⟨x, y, hvis, _⟩ := blit_report.mp h
      hv x y hvis
  exact Prod.ext hdisp hreport

/-- Every visited pixel lies right of and below the origin (R205). -/
theorem not_visited_of_origin_off_screen {x0 y0 : Nat} (h : 64 ≤ x0 ∨ 32 ≤ y0) (rows : List Byte) (x y : Nat) :
    ¬ Visited x0 y0 rows x y := by
  rintro ⟨hx, hy, r, c, -, -, -, -, rfl, rfl⟩
  omega

/-! ### DRW -/

theorem exec_drw_fits {s : State} {h : Nat} (hfit : h = 0 ∨ s.i.toNat + h ≤ 4096) (x y : Reg) :
    ∃ rows, exec (.drw x y h) s = .next (s.drawn x y rows) ∧ rows.length = h ∧
      ∀ r row, rows[r]? = some row → s.mem.read (s.i.toNat + r) = .ok row := by
  obtain ⟨rows, hr, hlen, hrows⟩ := Memory.readSprite_fits (m := s.mem) hfit
  exact ⟨rows, exec_drw_eq_drawn hr x y, hlen, hrows⟩

theorem State.drawn_vf (s : State) (x y : Reg) (rows : List Byte) :
    (s.drawn x y rows).reg Reg.vf = flagByte (blit (s.reg x).toNat (s.reg y).toNat rows s.disp).2 :=
  State.reg_setReg_same _ Reg.vf _

theorem State.sameBut_drawn (s : State) (x y : Reg) (rows : List Byte) :
    s.sameBut [.disp, .screen] [Reg.vf] (s.drawn x y rows) :=
  (((s.sameBut_refl _ _).setDisp (by simp) _).setReg (by simp) _).setScreen (by simp) _

/-- A sprite that visits no pixel changes only VF and the screen output. -/
theorem State.drawn_of_not_visited {s : State} {x y : Reg} {rows : List Byte}
    (hv : ∀ px py, ¬ Visited (s.reg x).toNat (s.reg y).toNat rows px py) :
    s.drawn x y rows = (s.setReg Reg.vf 0).setScreen .changed := by
  rw [State.drawn, blit_of_not_visited hv]
  rfl

/-! ### The obligations -/

/-- Settles O37: CLS sets the display, all off, and the screen output. -/
theorem clearScreen : Obligations.ClearScreen := fun s =>
  ⟨_, exec_cls s, Display.pixel_clear, rfl, ((s.sameBut_refl _ _).setDisp (by simp) _).setScreen (by simp) _⟩

/-- Settles O39: the second call flips the same pixels back, and finds on those that were off. -/
theorem blitTwiceIsIdentity : Obligations.BlitTwiceIsIdentity := by
  refine fun d x0 y0 rows => ⟨blit_blit_display d x0 y0 rows, blit_report.trans ?_⟩
  refine exists₂_congr fun x y => and_congr_right fun hv => ?_
  rw [(blit_flipsExactly x0 y0 rows d).flipped x y hv, Bool.not_eq_true']

/-- Settles O40: the law of the blitter at the old registers, with the report in VF. -/
theorem drawBlitsSpriteAndSetsCollision : Obligations.DrawBlitsSpriteAndSetsCollision := by
  intro s x y h hfit
  obtain ⟨rows, ht, hlen, hrows⟩ := exec_drw_fits hfit x y
  have hblit := blit_flipsExactly (s.reg x).toNat (s.reg y).toNat rows s.disp
  refine ⟨rows, _, ht, hlen, hrows, hblit.flipped, hblit.kept, fun hon => ?_, fun hoff => ?_, rfl,
    s.sameBut_drawn x y rows⟩
  · rw [State.drawn_vf, blit_report.mpr hon]
    rfl
  · have hreport : (blit (s.reg x).toNat (s.reg y).toNat rows s.disp).2 = false :=
      Bool.eq_false_iff.mpr fun hyes =>
        let ⟨px, py, hv, hon⟩ := blit_report.mp hyes
        Bool.eq_false_iff.mp (hoff px py hv) hon
    rw [State.drawn_vf, hreport]
    rfl

/-- Settles O41: no row, or no row on the screen, visits no pixel. -/
theorem emptyOrOffScreenDrawChangesNoPixel : Obligations.EmptyOrOffScreenDrawChangesNoPixel := by
  intro s x y h hcase
  obtain ⟨rows, ht, hlen, -⟩ := exec_drw_fits (hcase.imp_right And.left) x y
  have hv : ∀ px py, ¬ Visited (s.reg x).toNat (s.reg y).toNat rows px py := by
    obtain rfl | ⟨-, horigin⟩ := hcase
    · rw [List.length_eq_zero_iff.mp hlen]
      exact not_visited_nil _ _
    · exact not_visited_of_origin_off_screen horigin rows
  rw [State.drawn_of_not_visited hv] at ht
  exact ⟨_, ht, rfl, State.reg_setReg_same s Reg.vf 0, rfl,
    ((s.sameBut_refl _ _).setReg (by simp) _).setScreen (by simp) _⟩

end Sys2Proof.Machine

/-! PROOFS. Registers, flags, calls, timers and reset (40_step_cycle.md R110, 41_control_flow.md R131 to R138, 42_load_alu.md
R154 to R163, 43_index_memory.md R182, R183, 45_timers.md, 46_host_operations.md R246, 70_reset_and_hazards.md R300). -/

namespace Sys2Proof.Machine

/-! ### Flags -/

theorem flagByte_decide (c : Prop) [Decidable c] : flagByte (decide c) = if c then 1 else 0 := by
  simp [flagByte]

theorem toNat_flagByte (f : Bool) : (flagByte f).toNat = f.toNat := by
  cases f <;> rfl

theorem toNat_shiftedOutRight (a : Byte) : (shiftedOutRight a).toNat = a.toNat % 2 := by
  rw [shiftedOutRight, BitVec.getLsbD, Nat.toNat_testBit, Nat.pow_zero, Nat.div_one]

theorem toNat_shiftedOutLeft (a : Byte) : (shiftedOutLeft a).toNat = a.toNat / 128 := by
  have ha := a.isLt
  rw [shiftedOutLeft, BitVec.getLsbD, Nat.toNat_testBit]
  omega

/-! ### A result and a flag (R163) -/

theorem State.sameBut_setReg_setReg (s : State) (x : Reg) (b c : Byte) :
    s.sameBut [] [x, Reg.vf] ((s.setReg Reg.vf b).setReg x c) :=
  ((s.sameBut_refl _ _).setReg (by simp) b).setReg (by simp) c

theorem writeResultAndFlag_frame (x : Reg) (res : Byte) (f : Bool) (s : State) :
    s.sameBut [] [x, Reg.vf] (writeResultAndFlag x res f s) := by
  obtain ⟨-, h⟩ | ⟨-, h⟩ := writeResultAndFlag_cases s x res f <;> rw [h]
  · exact s.sameBut_setReg_setReg x _ _
  · exact ((s.sameBut_refl _ _).setReg (by simp) _).setReg (by simp) _

/-- An instruction that writes a result of value `n`, and a flag for the condition `c`, in the order of the parameter. -/
theorem exec_resultAndFlag {i : Instr} {s : State} {x : Reg} {res : Byte} {n : Nat} {c : Prop} [Decidable c]
    (h : exec i s = .next (writeResultAndFlag x res (decide c) s)) (hn : res.toNat = n) :
    ∃ t, exec i s = .next t ∧ s.sameBut [] [x, Reg.vf] t ∧
      (x ≠ Reg.vf → (t.reg x).toNat = n ∧ t.reg Reg.vf = if c then 1 else 0) ∧
      (x = Reg.vf → s.params.vfOrder = .flagThenResult → (t.reg Reg.vf).toNat = n) ∧
      (x = Reg.vf → s.params.vfOrder = .resultThenFlag → t.reg Reg.vf = if c then 1 else 0) := by
  refine ⟨_, h, writeResultAndFlag_frame x res _ s, fun hx => ?_, ?_, ?_⟩
  · rw [writeResultAndFlag_of_ne_vf hx, State.reg_setReg_same, State.reg_setReg_of_ne _ _ _ _ hx.symm,
      State.reg_setReg_same, flagByte_decide]
    exact ⟨hn, rfl⟩
  · rintro rfl ho
    simpa [writeResultAndFlag, ho] using hn
  · rintro rfl ho
    simp [writeResultAndFlag, ho, flagByte_decide]

theorem toNat_sub_byte (a b : Byte) : (a - b).toNat = (a.toNat + 256 - b.toNat) % 256 := by
  rw [BitVec.toNat_sub]
  omega

/-- Settles O25: the sum of bytes and the carry condition. -/
theorem addRegisterSetsCarry : Obligations.AddRegisterSetsCarry := fun s x y =>
  exec_resultAndFlag (exec_addVxVy s x y) (BitVec.toNat_add _ _)

/-- Settles O26: the difference of bytes, in either direction, and the condition of no borrow. -/
theorem subtractSetsNoBorrow : Obligations.SubtractSetsNoBorrow := fun s x y =>
  ⟨exec_resultAndFlag (exec_sub s x y) (toNat_sub_byte _ _),
    exec_resultAndFlag (exec_subn s x y) (toNat_sub_byte _ _)⟩

/-- A shift writes the flag and then the result (R160, R162). -/
theorem exec_flagThenResult {i : Instr} {s : State} {x : Reg} {res : Byte} {f : Bool} {n m : Nat}
    (h : exec i s = .next ((s.setReg Reg.vf (flagByte f)).setReg x res)) (hn : res.toNat = n) (hm : f.toNat = m) :
    ∃ t, exec i s = .next t ∧ s.sameBut [] [x, Reg.vf] t ∧ (t.reg x).toNat = n ∧
      (x ≠ Reg.vf → (t.reg Reg.vf).toNat = m) := by
  refine ⟨_, h, s.sameBut_setReg_setReg x _ _, ?_, fun hx => ?_⟩
  · rw [State.reg_setReg_same, hn]
  · rw [State.reg_setReg_of_ne _ _ _ _ hx.symm, State.reg_setReg_same, toNat_flagByte, hm]

/-- Settles O27: half and double of the register, with the bit shifted out as the flag. -/
theorem shiftsSetTheBitShiftedOut : Obligations.ShiftsSetTheBitShiftedOut := by
  refine fun s x y => ⟨exec_flagThenResult (exec_shr s x y) ?_ (toNat_shiftedOutRight _),
    exec_flagThenResult (exec_shl s x y) ?_ (toNat_shiftedOutLeft _)⟩
  · rw [BitVec.toNat_ushiftRight, Nat.shiftRight_one]
  · rw [BitVec.toNat_shiftLeft, Nat.shiftLeft_eq]

/-! ### One register, one index, one timer -/

/-- Settles O24: each sets `V[x]` only, to a word whose bits are read off one by one. -/
theorem copyAndLogic : Obligations.CopyAndLogic := by
  refine fun s x y => ⟨exec_setReg_frame (exec_ldVxVy s x y), ?_, ?_, ?_⟩
  · obtain ⟨t, ht, hreg, hframe⟩ := exec_setReg_frame (exec_or s x y)
    exact ⟨t, ht, hframe, fun n _ => by rw [hreg, BitVec.getLsbD_or]⟩
  · obtain ⟨t, ht, hreg, hframe⟩ := exec_setReg_frame (exec_and s x y)
    exact ⟨t, ht, hframe, fun n _ => by rw [hreg, BitVec.getLsbD_and]⟩
  · obtain ⟨t, ht, hreg, hframe⟩ := exec_setReg_frame (exec_xor s x y)
    exact ⟨t, ht, hframe, fun n _ => by rw [hreg, BitVec.getLsbD_xor]⟩

theorem toNat_byteWord (b : Byte) : (byteWord b).toNat = b.toNat := BitVec.toNat_setWidth_of_le (by decide)

/-- The glyph's address does not wrap: it is at most 4095 + 5 * 255 (R183). -/
theorem toNat_glyphAddr (base : Addr) (digit : Byte) : (glyphAddr base digit).toNat = base.toNat + 5 * digit.toNat := by
  have hbase := base.isLt
  have hdigit := digit.isLt
  have hlt : base.toNat + 5 * digit.toNat < 2 ^ 16 := by omega
  exact (BitVec.toNat_ofNat _ _).trans (Nat.mod_eq_of_lt hlt)

/-- Settles O31: each sets `I` only, the first to a sum of words, which wraps, the second to the glyph's address. -/
theorem indexArithmetic : Obligations.IndexArithmetic := by
  refine fun s x => ⟨⟨_, exec_addIVx s x, ?_, s.sameBut_setI _⟩, ⟨_, exec_ldFVx s x, ?_, s.sameBut_setI _⟩⟩
  · rw [State.setI_i, BitVec.toNat_add, toNat_byteWord]
  · rw [State.setI_i, toNat_glyphAddr]

/-- Settles O42: one update each, of `V[x]`, DT or ST. -/
theorem timerInstructions : Obligations.TimerInstructions := fun s x =>
  ⟨exec_setReg_frame (exec_ldVxDt s x),
    ⟨_, exec_ldDtVx s x, rfl, (s.sameBut_refl _ _).setDt (by simp) _⟩,
    ⟨_, exec_ldStVx s x, rfl, (s.sameBut_refl _ _).setSt (by simp) _⟩⟩

/-! ### Control transfer -/

theorem pressed_of_gt {keys : BitVec 16} {k : Byte} (h : 15 < k.toNat) : pressed keys k = false := by
  simp [pressed, Nat.not_le.mpr h]

theorem pressed_of_le {keys : BitVec 16} {k : Byte} (h : k.toNat ≤ 15) : pressed keys k = keys.getLsbD k.toNat := by
  simp [pressed, h]

/-- Settles O21: SKNP only sets `PC`, on the bit of `keys` the register numbers, if it numbers one. -/
theorem skipIfKeyNotPressed : Obligations.SkipIfKeyNotPressed := by
  intro s x
  obtain ⟨t, ht, hpc, hframe⟩ := exec_setPc_frame (exec_sknp s x)
  refine ⟨t, ht, hframe, fun hgt => ?_, fun hle => ?_⟩
  · rw [hpc, pressed_of_gt hgt]
    rfl
  · rw [hpc, pressed_of_le hle]
    cases s.keys.getLsbD (s.reg x).toNat <;> rfl

/-- Settles O18: the two cases of the depth, one equation of CALL each. -/
theorem callPushesAdvancedPc : Obligations.CallPushesAdvancedPc := fun s nnn =>
  ⟨fun hroom => ⟨_, exec_call s nnn hroom, toNat_addrWord nnn, rfl,
    ((s.sameBut_refl _ _).setStack (by simp) _).setPc (by simp) _⟩, exec_call_full s nnn⟩

theorem stack_of_exec_call_next {s t : State} {nnn : Addr} (h : exec (.call nnn) s = .next t) :
    t.stack = s.pc :: s.stack := by
  by_cases hd : s.params.stackDepth = some s.stack.length
  · cases (exec_call_full s nnn hd).symm.trans h
  · cases (exec_call s nnn hd).symm.trans h
    rfl

/-- Settles O19: RET pops what CALL pushed. -/
theorem returnComesBackAfterCall : Obligations.ReturnComesBackAfterCall := by
  intro s t u nnn hcall hu
  exact ⟨_, exec_ret_cons u (hu.trans (stack_of_exec_call_next hcall)), rfl, rfl⟩

/-! ### The step and the operations of the host -/

/-- Settles O11: the operation is a STEP, whose fetch does not look at the agenda or the index of the free inputs. -/
theorem stepRunsTheDecodedInstruction : Obligations.StepRunsTheDecodedInstruction := by
  intro s w i hf hd
  refine ⟨fun rb ks rest ha => ?_, fun ha => ?_, pc_advance_of_fetch hf⟩
  · exact (step_of_agenda_cons ha).trans (stepOp_of_ok (s := s.setAgenda rest) hf hd rb ks)
  · exact (step_of_agenda_nil ha).trans (stepOp_of_ok (s := s.setTurn (s.turn + 1)) hf hd _ _)

/-- Settles O44: the reset values, and what RESET leaves of the model's own fields. -/
theorem resetGivesResetValues : Obligations.ResetGivesResetValues := fun s =>
  ⟨_, perform_reset s, resetWith_reg s.params, toNat_addrWord s.params.programBase, rfl, rfl, rfl, rfl,
    fun _ ha => Memory.read_of_lt ha, Display.pixel_clear, rfl, rfl⟩

theorem toNat_countDown (b : Byte) : (countDown b).toNat = b.toNat - 1 := by
  unfold countDown
  split
  next h => rw [h]; rfl
  next h =>
    have hpos : 0 < b.toNat := Nat.pos_of_ne_zero fun h0 => h (BitVec.eq_of_toNat_eq h0)
    exact BitVec.toNat_sub_of_le hpos

theorem hostTick_dt (s : State) : (hostTick s).dt.toNat = s.dt.toNat - 1 := toNat_countDown s.dt

theorem hostTick_st (s : State) : (hostTick s).st.toNat = s.st.toNat - 1 := toNat_countDown s.st

theorem State.sameBut.hostTick {s t : State} (h : s.sameBut [.dt, .st] [] t) :
    s.sameBut [.dt, .st] [] (hostTick t) :=
  (h.setDt (by simp) _).setSt (by simp) _

/-- Settles O43, by induction on the number of ticks. -/
theorem ticksCountDownToZero : Obligations.TicksCountDownToZero := by
  intro n s
  induction n with
  | zero => exact ⟨rfl, rfl, s.sameBut_refl _ _, rfl⟩
  | succ n ih =>
    obtain ⟨hdt, hst, hframe, hperform⟩ := ih
    rw [Function.iterate_succ_apply', hostTick_dt, hostTick_st, hdt, hst, Nat.sub_sub, Nat.sub_sub]
    exact ⟨rfl, rfl, hframe.hostTick, hperform⟩

end Sys2Proof.Machine
